-- ==== Sys2Proof/Word.lean ====
section
/-! DEFINITION. The bit vectors the spec speaks of: a nibble field, a byte, an address immediate and a 16-bit word (R8, R71). -/

namespace Sys2Proof

/-- A 4-bit field: a register index, a nibble immediate, a hex key (R32, R71). -/
abbrev Nibble := BitVec 4

/-- An 8-bit value: a general register, a timer, a byte of memory (R20, R29, R50). -/
abbrev Byte := BitVec 8

/-- A 12-bit address immediate `nnn` (R71). -/
abbrev Imm12 := BitVec 12

/-- A 16-bit value: an instruction word, the PC, the index register, a return address (R23, R25, R27, R70). -/
abbrev Word := BitVec 16

end Sys2Proof
end

