-- ==== Sys2Proof/Syntax.lean ====
section
/-! DEFINITION. The instructions: one constructor per row of spec/opcode_table.json (R79). A field that the instruction
ignores (the low nibble of 5xyN and 9xyN, the operand bits of an undefined code) is kept, so that no bit of a word is lost. -/

namespace Sys2Proof

/-- The instruction set, in the order of R79. -/
inductive Instr where
  /-- 00E0 (R170). -/
  | cls
  /-- 00EE (R120). -/
  | ret
  /-- 0nnn other than 00E0 and 00EE: an undefined code (R74, R109). -/
  | nop0 (nnn : Imm12)
  /-- 1nnn (R121). -/
  | jp (nnn : Imm12)
  /-- 2nnn (R123). -/
  | call (nnn : Imm12)
  /-- 3xkk (R127). -/
  | seImm (x : Nibble) (kk : Byte)
  /-- 4xkk (R128). -/
  | sneImm (x : Nibble) (kk : Byte)
  /-- 5xyN, `n` ignored (R73, R129). -/
  | seReg (x y n : Nibble)
  /-- 6xkk (R140). -/
  | ldImm (x : Nibble) (kk : Byte)
  /-- 7xkk (R141). -/
  | addImm (x : Nibble) (kk : Byte)
  /-- 8xy0 (R143). -/
  | ldReg (x y : Nibble)
  /-- 8xy1 (R144). -/
  | orReg (x y : Nibble)
  /-- 8xy2 (R145). -/
  | andReg (x y : Nibble)
  /-- 8xy3 (R146). -/
  | xorReg (x y : Nibble)
  /-- 8xy4 (R147). -/
  | addReg (x y : Nibble)
  /-- 8xy5 (R148). -/
  | sub (x y : Nibble)
  /-- 8xy6 (R149). -/
  | shr (x y : Nibble)
  /-- 8xy7 (R150). -/
  | subn (x y : Nibble)
  /-- 8xyE (R151). -/
  | shl (x y : Nibble)
  /-- 8xyN with N in 8..D or F: an undefined code (R75, R109). -/
  | nop8 (x y n : Nibble)
  /-- 9xyN, `n` ignored (R73, R130). -/
  | sneReg (x y n : Nibble)
  /-- Annn (R210). -/
  | ldI (nnn : Imm12)
  /-- Bnnn (R126). -/
  | jpV0 (nnn : Imm12)
  /-- Cxkk (R153). -/
  | rnd (x : Nibble) (kk : Byte)
  /-- Dxyn (R171). -/
  | drw (x y n : Nibble)
  /-- Ex9E (R190). -/
  | skp (x : Nibble)
  /-- ExA1 (R191). -/
  | sknp (x : Nibble)
  /-- Exkk other than Ex9E and ExA1: an undefined code (R76, R193). -/
  | nopE (x : Nibble) (kk : Byte)
  /-- Fx07 (R200). -/
  | ldVxDt (x : Nibble)
  /-- Fx0A (R192). -/
  | ldK (x : Nibble)
  /-- Fx15 (R201). -/
  | ldDtVx (x : Nibble)
  /-- Fx18 (R202). -/
  | ldStVx (x : Nibble)
  /-- Fx1E (R211). -/
  | addI (x : Nibble)
  /-- Fx29 (R212). -/
  | ldF (x : Nibble)
  /-- Fx33 (R213). -/
  | ldB (x : Nibble)
  /-- Fx55 (R214). -/
  | ldMemStore (x : Nibble)
  /-- Fx65 (R215). -/
  | ldMemLoad (x : Nibble)
  /-- Fxkk other than the nine above: an undefined code (R77, R217). -/
  | nopF (x : Nibble) (kk : Byte)
deriving DecidableEq, Repr

/-- The row of spec/opcode_table.json an instruction belongs to, by its mnemonic. -/
def Instr.mnemonic : Instr → String
  | .cls => "CLS"
  | .ret => "RET"
  | .nop0 _ => "NOP_0"
  | .jp _ => "JP"
  | .call _ => "CALL"
  | .seImm _ _ => "SE_imm"
  | .sneImm _ _ => "SNE_imm"
  | .seReg _ _ _ => "SE_reg"
  | .ldImm _ _ => "LD_imm"
  | .addImm _ _ => "ADD_imm"
  | .ldReg _ _ => "LD_reg"
  | .orReg _ _ => "OR"
  | .andReg _ _ => "AND"
  | .xorReg _ _ => "XOR"
  | .addReg _ _ => "ADD_reg"
  | .sub _ _ => "SUB"
  | .shr _ _ => "SHR"
  | .subn _ _ => "SUBN"
  | .shl _ _ => "SHL"
  | .nop8 _ _ _ => "NOP_8"
  | .sneReg _ _ _ => "SNE_reg"
  | .ldI _ => "LD_I"
  | .jpV0 _ => "JP_V0"
  | .rnd _ _ => "RND"
  | .drw _ _ _ => "DRW"
  | .skp _ => "SKP"
  | .sknp _ => "SKNP"
  | .nopE _ _ => "NOP_E"
  | .ldVxDt _ => "LD_Vx_DT"
  | .ldK _ => "LD_K"
  | .ldDtVx _ => "LD_DT_Vx"
  | .ldStVx _ => "LD_ST_Vx"
  | .addI _ => "ADD_I"
  | .ldF _ => "LD_F"
  | .ldB _ => "LD_B"
  | .ldMemStore _ => "LD_mem_store"
  | .ldMemLoad _ => "LD_mem_load"
  | .nopF _ _ => "NOP_F"

end Sys2Proof
end

