-- ==== Sys2Proof/WellFormed.lean ====
section
/-! DEFINITION. Which instructions some word decodes to: an undefined-code constructor carries no key that selects a defined
instruction (R74 to R77). Every other instruction is well formed at every value of its operands (R72, R80). -/

namespace Sys2Proof

/-- The values of bits 11:0 that select a defined instruction of group 0 (R74). -/
def definedKeys0 : List Imm12 := [0x0E0, 0x0EE]

/-- The values of `n` that select a defined instruction of group 8 (R75). -/
def definedKeys8 : List Nibble := [0x0, 0x1, 0x2, 0x3, 0x4, 0x5, 0x6, 0x7, 0xE]

/-- The values of `kk` that select a defined instruction of group E (R76). -/
def definedKeysE : List Byte := [0x9E, 0xA1]

/-- The values of `kk` that select a defined instruction of group F (R77). -/
def definedKeysF : List Byte := [0x07, 0x0A, 0x15, 0x18, 0x1E, 0x29, 0x33, 0x55, 0x65]

/-- The check: an undefined code is not a defined one (R80). -/
def Instr.wellFormed : Instr → Bool
  | .nop0 nnn => !definedKeys0.contains nnn
  | .nop8 _ _ n => !definedKeys8.contains n
  | .nopE _ kk => !definedKeysE.contains kk
  | .nopF _ kk => !definedKeysF.contains kk
  | .cls | .ret | .jp _ | .call _ | .seImm _ _ | .sneImm _ _ | .seReg _ _ _ | .ldImm _ _ | .addImm _ _
  | .ldReg _ _ | .orReg _ _ | .andReg _ _ | .xorReg _ _ | .addReg _ _ | .sub _ _ | .shr _ _ | .subn _ _
  | .shl _ _ | .sneReg _ _ _ | .ldI _ | .jpV0 _ | .rnd _ _ | .drw _ _ _ | .skp _ | .sknp _ | .ldVxDt _
  | .ldK _ | .ldDtVx _ | .ldStVx _ | .addI _ | .ldF _ | .ldB _ | .ldMemStore _ | .ldMemLoad _ => true

end Sys2Proof
end

