-- ==== Sys2Proof/Decode.lean ====
section
/-! DEFINITION. Decoding (R70 to R80) and the encoder written from the same encodings: the fields of a word, the 16-way
dispatch with its secondary dispatches, the opcode map of R79 as data, and the decoder over bytes. -/

namespace Sys2Proof

/-- `op = w[15:12]` (R71). -/
def fieldOp (w : Word) : Nibble := w.extractLsb' 12 4

/-- `x = w[11:8]` (R71). -/
def fieldX (w : Word) : Nibble := w.extractLsb' 8 4

/-- `y = w[7:4]` (R71). -/
def fieldY (w : Word) : Nibble := w.extractLsb' 4 4

/-- `n = w[3:0]` (R71). -/
def fieldN (w : Word) : Nibble := w.extractLsb' 0 4

/-- `kk = w[7:0]` (R71). -/
def fieldKK (w : Word) : Byte := w.extractLsb' 0 8

/-- `nnn = w[11:0]` (R71). -/
def fieldNNN (w : Word) : Imm12 := w.extractLsb' 0 12

/-- Group 0: the key is bits 11:0, so only 00E0 and 00EE are defined (R74). -/
def decodeGroup0 (w : Word) : Instr :=
  if fieldNNN w = 0x0E0 then .cls
  else if fieldNNN w = 0x0EE then .ret
  else .nop0 (fieldNNN w)

/-- Group 8: the key is `n` (R75). -/
def decodeGroup8 (w : Word) : Instr :=
  if fieldN w = 0x0 then .ldReg (fieldX w) (fieldY w)
  else if fieldN w = 0x1 then .orReg (fieldX w) (fieldY w)
  else if fieldN w = 0x2 then .andReg (fieldX w) (fieldY w)
  else if fieldN w = 0x3 then .xorReg (fieldX w) (fieldY w)
  else if fieldN w = 0x4 then .addReg (fieldX w) (fieldY w)
  else if fieldN w = 0x5 then .sub (fieldX w) (fieldY w)
  else if fieldN w = 0x6 then .shr (fieldX w) (fieldY w)
  else if fieldN w = 0x7 then .subn (fieldX w) (fieldY w)
  else if fieldN w = 0xE then .shl (fieldX w) (fieldY w)
  else .nop8 (fieldX w) (fieldY w) (fieldN w)

/-- Group E: the key is `kk` (R76). -/
def decodeGroupE (w : Word) : Instr :=
  if fieldKK w = 0x9E then .skp (fieldX w)
  else if fieldKK w = 0xA1 then .sknp (fieldX w)
  else .nopE (fieldX w) (fieldKK w)

/-- Group F: the key is `kk` (R77). -/
def decodeGroupF (w : Word) : Instr :=
  if fieldKK w = 0x07 then .ldVxDt (fieldX w)
  else if fieldKK w = 0x0A then .ldK (fieldX w)
  else if fieldKK w = 0x15 then .ldDtVx (fieldX w)
  else if fieldKK w = 0x18 then .ldStVx (fieldX w)
  else if fieldKK w = 0x1E then .addI (fieldX w)
  else if fieldKK w = 0x29 then .ldF (fieldX w)
  else if fieldKK w = 0x33 then .ldB (fieldX w)
  else if fieldKK w = 0x55 then .ldMemStore (fieldX w)
  else if fieldKK w = 0x65 then .ldMemLoad (fieldX w)
  else .nopF (fieldX w) (fieldKK w)

/-- The 16-way dispatch on the top nibble (R73, R79). Every word decodes (R80); the last branch is `op` = 0xF. -/
def decode (w : Word) : Instr :=
  if fieldOp w = 0x0 then decodeGroup0 w
  else if fieldOp w = 0x1 then .jp (fieldNNN w)
  else if fieldOp w = 0x2 then .call (fieldNNN w)
  else if fieldOp w = 0x3 then .seImm (fieldX w) (fieldKK w)
  else if fieldOp w = 0x4 then .sneImm (fieldX w) (fieldKK w)
  else if fieldOp w = 0x5 then .seReg (fieldX w) (fieldY w) (fieldN w)
  else if fieldOp w = 0x6 then .ldImm (fieldX w) (fieldKK w)
  else if fieldOp w = 0x7 then .addImm (fieldX w) (fieldKK w)
  else if fieldOp w = 0x8 then decodeGroup8 w
  else if fieldOp w = 0x9 then .sneReg (fieldX w) (fieldY w) (fieldN w)
  else if fieldOp w = 0xA then .ldI (fieldNNN w)
  else if fieldOp w = 0xB then .jpV0 (fieldNNN w)
  else if fieldOp w = 0xC then .rnd (fieldX w) (fieldKK w)
  else if fieldOp w = 0xD then .drw (fieldX w) (fieldY w) (fieldN w)
  else if fieldOp w = 0xE then decodeGroupE w
  else decodeGroupF w

/-- Format A: `oooo nnnn nnnn nnnn` (R71). -/
def formatA (op : Nibble) (nnn : Imm12) : Word := op ++ nnn

/-- Formats XK and XF: `oooo xxxx kkkk kkkk` (R71). -/
def formatXK (op x : Nibble) (kk : Byte) : Word := (op ++ x : BitVec 8) ++ kk

/-- Formats XY and XYN: `oooo xxxx yyyy nnnn` (R71). -/
def formatXY (op x y n : Nibble) : Word := (op ++ x : BitVec 8) ++ (y ++ n : BitVec 8)

/-- The encoder: the word whose pattern R79 gives the instruction. -/
def encode : Instr → Word
  | .cls => formatA 0x0 0x0E0
  | .ret => formatA 0x0 0x0EE
  | .nop0 nnn => formatA 0x0 nnn
  | .jp nnn => formatA 0x1 nnn
  | .call nnn => formatA 0x2 nnn
  | .seImm x kk => formatXK 0x3 x kk
  | .sneImm x kk => formatXK 0x4 x kk
  | .seReg x y n => formatXY 0x5 x y n
  | .ldImm x kk => formatXK 0x6 x kk
  | .addImm x kk => formatXK 0x7 x kk
  | .ldReg x y => formatXY 0x8 x y 0x0
  | .orReg x y => formatXY 0x8 x y 0x1
  | .andReg x y => formatXY 0x8 x y 0x2
  | .xorReg x y => formatXY 0x8 x y 0x3
  | .addReg x y => formatXY 0x8 x y 0x4
  | .sub x y => formatXY 0x8 x y 0x5
  | .shr x y => formatXY 0x8 x y 0x6
  | .subn x y => formatXY 0x8 x y 0x7
  | .shl x y => formatXY 0x8 x y 0xE
  | .nop8 x y n => formatXY 0x8 x y n
  | .sneReg x y n => formatXY 0x9 x y n
  | .ldI nnn => formatA 0xA nnn
  | .jpV0 nnn => formatA 0xB nnn
  | .rnd x kk => formatXK 0xC x kk
  | .drw x y n => formatXY 0xD x y n
  | .skp x => formatXK 0xE x 0x9E
  | .sknp x => formatXK 0xE x 0xA1
  | .nopE x kk => formatXK 0xE x kk
  | .ldVxDt x => formatXK 0xF x 0x07
  | .ldK x => formatXK 0xF x 0x0A
  | .ldDtVx x => formatXK 0xF x 0x15
  | .ldStVx x => formatXK 0xF x 0x18
  | .addI x => formatXK 0xF x 0x1E
  | .ldF x => formatXK 0xF x 0x29
  | .ldB x => formatXK 0xF x 0x33
  | .ldMemStore x => formatXK 0xF x 0x55
  | .ldMemLoad x => formatXK 0xF x 0x65
  | .nopF x kk => formatXK 0xF x kk

/-- One row of the opcode map of R79: a word is the row's iff `(w & mask) == match`. -/
structure OpcodeRow where
  mnemonic : String
  mask     : Word
  pattern  : Word
deriving DecidableEq, Repr

/-- The opcode map of R79, transcribed in its order (rows 00E0 to 8xyN). -/
def opcodeRowsLow : List OpcodeRow :=
  [⟨"CLS", 0xFFFF, 0x00E0⟩, ⟨"RET", 0xFFFF, 0x00EE⟩, ⟨"NOP_0", 0xF000, 0x0000⟩, ⟨"JP", 0xF000, 0x1000⟩,
   ⟨"CALL", 0xF000, 0x2000⟩, ⟨"SE_imm", 0xF000, 0x3000⟩, ⟨"SNE_imm", 0xF000, 0x4000⟩, ⟨"SE_reg", 0xF000, 0x5000⟩,
   ⟨"LD_imm", 0xF000, 0x6000⟩, ⟨"ADD_imm", 0xF000, 0x7000⟩] ++
  [⟨"LD_reg", 0xF00F, 0x8000⟩, ⟨"OR", 0xF00F, 0x8001⟩, ⟨"AND", 0xF00F, 0x8002⟩, ⟨"XOR", 0xF00F, 0x8003⟩,
   ⟨"ADD_reg", 0xF00F, 0x8004⟩, ⟨"SUB", 0xF00F, 0x8005⟩, ⟨"SHR", 0xF00F, 0x8006⟩, ⟨"SUBN", 0xF00F, 0x8007⟩,
   ⟨"SHL", 0xF00F, 0x800E⟩, ⟨"NOP_8", 0xF000, 0x8000⟩]

/-- The opcode map of R79, transcribed in its order (rows 9xyN to Fxkk). -/
def opcodeRowsHigh : List OpcodeRow :=
  [⟨"SNE_reg", 0xF000, 0x9000⟩, ⟨"LD_I", 0xF000, 0xA000⟩, ⟨"JP_V0", 0xF000, 0xB000⟩, ⟨"RND", 0xF000, 0xC000⟩,
   ⟨"DRW", 0xF000, 0xD000⟩, ⟨"SKP", 0xF0FF, 0xE09E⟩, ⟨"SKNP", 0xF0FF, 0xE0A1⟩, ⟨"NOP_E", 0xF000, 0xE000⟩] ++
  [⟨"LD_Vx_DT", 0xF0FF, 0xF007⟩, ⟨"LD_K", 0xF0FF, 0xF00A⟩, ⟨"LD_DT_Vx", 0xF0FF, 0xF015⟩, ⟨"LD_ST_Vx", 0xF0FF, 0xF018⟩,
   ⟨"ADD_I", 0xF0FF, 0xF01E⟩, ⟨"LD_F", 0xF0FF, 0xF029⟩, ⟨"LD_B", 0xF0FF, 0xF033⟩, ⟨"LD_mem_store", 0xF0FF, 0xF055⟩,
   ⟨"LD_mem_load", 0xF0FF, 0xF065⟩, ⟨"NOP_F", 0xF000, 0xF000⟩]

/-- The opcode map of R79: 38 rows, tried top to bottom. -/
def opcodeMap : List OpcodeRow := opcodeRowsLow ++ opcodeRowsHigh

/-- Whether a word matches a row (R79). -/
def OpcodeRow.matches (r : OpcodeRow) (w : Word) : Bool := w &&& r.mask == r.pattern

/-- The row of R79 a word selects: the first whose `(w & mask) == match` holds. -/
def selectRow (w : Word) : Option OpcodeRow := opcodeMap.find? (·.matches w)

/-- Why the decoder over bytes answers no instruction. No word is refused (R80). -/
inductive DecodeError where
  /-- Fewer than the two bytes of an instruction are left (R70). -/
  | truncated
deriving DecidableEq, Repr

/-- A big-endian instruction word: the first byte is bits 15:8 (R55). -/
def joinBytes (hi lo : Byte) : Word := hi ++ lo

/-- The bytes of a word in the order memory holds them (R55). -/
def splitWord (w : Word) : Byte × Byte := (w.extractLsb' 8 8, w.extractLsb' 0 8)

/-- The decoder over bytes: it consumes exactly two of them and answers the rest (R70). -/
def decodeBytes : List Byte → Except DecodeError (Instr × List Byte)
  | hi :: lo :: rest => .ok (decode (joinBytes hi lo), rest)
  | _ => .error .truncated

/-- The instruction word that `nbits` bits of the opcode table's numbering give: bit 0 is the least significant bit of the one
word, and the bits above `nbits` are zero. -/
def tableWord (nbits w : Nat) : Word := BitVec.ofNat 16 (w % 2 ^ nbits)

/-- What the decoder reads from an instruction of `nbits` bits `w`, laid out big-endian. An instruction has 16 bits (R70), so
a longer one is refused. -/
def decodeTableWord (nbits w : Nat) : Option Instr :=
  if nbits ≤ 16 then
    match decodeBytes [(splitWord (tableWord nbits w)).1, (splitWord (tableWord nbits w)).2] with
    | .ok (i, _) => some i
    | .error _ => none
  else none

end Sys2Proof
end

