-- ==== Sys2Proof/Config.lean ====
section
/-! DEFINITION. The parameters of R7, each a named constant with this hardware's value, the default FONT of R262, and the free
values: what the host presents to each step (R240), an opaque constant with no body. The register widths are also the types of
Word.lean, which `widths_of_types` (Sys2Proof/Laws/State.lean) ties to the constants. -/

namespace Sys2Proof

/-- `NUM_V`: the general registers V0 to VF (R7, R20). -/
abbrev Config.numV : Nat := 16

/-- `V_WIDTH`: the bits of a general register (R7, R20). -/
abbrev Config.vWidth : Nat := 8

/-- `I_WIDTH`: the bits of the index register (R7, R25). -/
abbrev Config.iWidth : Nat := 16

/-- `PC_WIDTH`: the bits of the PC (R7, R23). -/
abbrev Config.pcWidth : Nat := 16

/-- `TIMER_WIDTH`: the bits of DT and of ST (R7, R29, R30). -/
abbrev Config.timerWidth : Nat := 8

/-- `STACK_SLOTS`: the slots of the stack, 16 bits each (R7, R27). -/
abbrev Config.stackSlots : Nat := 16

/-- `KEY_RANGE`: how many hex keys there are, 0x0 to 0xF (R7, R32). -/
abbrev Config.keyRange : Nat := 16

/-- `TICK_PERIOD`: TICK is due once this much of a second has elapsed since the last acknowledgement (R7, R108). The host
measures it; the model carries no time (log entry 10). -/
abbrev Config.tickPeriod : Rat := 1 / 60

/-- `MEM_SIZE`: the memory has the addresses 0x000 to 0xFFE (R7, R50). -/
abbrev Config.memSize : Nat := 4095

/-- `HALT_PC`: the core is halted when `PC >= 0xFFE` (R7, R101). -/
abbrev Config.haltPc : Word := 0xFFE

/-- `PC_RESET`, the entry point after load (R7, R260). -/
abbrev Config.pcReset : Word := 0x200

/-- `ROM_BASE`, where the ROM image is copied (R7, R260). -/
abbrev Config.romBase : Nat := 0x200

/-- `FONT_BASE`, where the glyph font is copied (R7, R260). -/
abbrev Config.fontBase : Nat := 0x000

/-- `FONT_SIZE`: the bytes of the glyph font, 0x000 to 0x04F (R7, R262). -/
abbrev Config.fontSize : Nat := 80

/-- `ROM_MAX`: how many ROM bytes fit, `MEM_SIZE − ROM_BASE` = 3583 (R7, R263). -/
abbrev Config.romMax : Nat := Config.memSize - Config.romBase

/-- `STACK_DEPTH_USABLE`: the value of SP at which a call overflows (R7, R124). -/
abbrev Config.stackDepth : Nibble := 15

/-- `GLYPH_STRIDE`: bytes per glyph (R7, R212). -/
abbrev Config.glyphStride : Word := 5

/-- `SCREEN_W` (R7). -/
abbrev Config.screenW : Nat := 64

/-- `SCREEN_H` (R7). -/
abbrev Config.screenH : Nat := 32

/-- `COLOR_ON` in the byte order R, G, B, A (R7, R175). -/
def Config.colorOn : List Byte := [0xFF, 0xFF, 0xFF, 0xFF]

/-- `COLOR_OFF` in the byte order R, G, B, A (R7, R175). -/
def Config.colorOff : List Byte := [0x00, 0xF0, 0x00, 0xFF]

/-- `RENDER_BYTES`: 64 × 32 pixels of 4 bytes, 8192 (R7, R174). -/
abbrev Config.renderBytes : Nat := Config.screenW * Config.screenH * 4

/-- The glyphs 0 to 7 of the default FONT (R262). -/
def Config.fontLow : List Byte :=
  [0xF0, 0x90, 0x90, 0x90, 0xF0] ++ [0x20, 0x60, 0x20, 0x20, 0x70] ++
  [0xF0, 0x10, 0xF0, 0x80, 0xF0] ++ [0xF0, 0x10, 0xF0, 0x10, 0xF0] ++
  [0x90, 0x90, 0xF0, 0x10, 0x10] ++ [0xF0, 0x80, 0xF0, 0x10, 0xF0] ++
  [0xF0, 0x80, 0xF0, 0x90, 0xF0] ++ [0xF0, 0x10, 0x20, 0x40, 0x40]

/-- The glyphs 8 to F of the default FONT (R262). -/
def Config.fontHigh : List Byte :=
  [0xF0, 0x90, 0xF0, 0x90, 0xF0] ++ [0xF0, 0x90, 0xF0, 0x10, 0xF0] ++
  [0xF0, 0x90, 0xF0, 0x90, 0x90] ++ [0xE0, 0x90, 0xE0, 0x90, 0xE0] ++
  [0xF0, 0x80, 0x80, 0x80, 0xF0] ++ [0xE0, 0x90, 0x90, 0x90, 0xE0] ++
  [0xF0, 0x80, 0xF0, 0x80, 0xF0] ++ [0xF0, 0x80, 0xF0, 0x80, 0x80]

/-- `FONT`: 80 bytes, glyph d at `5·d` (R262; the bytes are the spec's decision D4). A claim that depends on them names FONT. -/
def Config.font : List Byte := Config.fontLow ++ Config.fontHigh

/-- What a byte of memory holds after the load of an empty ROM, and so what an address that memory does not list
reads as: the font, then zeros (R38, R260; the zeros are the spec's decision D3). -/
def Config.resetByte (a : Nat) : Byte :=
  if Config.fontBase ≤ a ∧ a < Config.fontBase + Config.fontSize then Config.font.getD (a - Config.fontBase) 0 else 0

/-- What the host does to the key slot between two steps (R240: it may set it to any value 0x0–0xF or none, or leave it). -/
inductive KeyAction where
  /-- The host leaves the slot as the last step left it (R243). -/
  | keep
  /-- The host sets the slot to none. -/
  | release
  /-- The host presents the key `k`. -/
  | press (k : Nibble)
deriving DecidableEq, Repr, Inhabited

/-- What the host presents for one step (R240, R241): what it does to the key slot, whether the wall clock has
passed 1/60 s, and the random byte. -/
structure HostInputs where
  key  : KeyAction
  tick : Bool
  rnd  : Byte
deriving DecidableEq, Repr, Inhabited

/-- FREE VALUE (log entry 1): what the host presents for the `n`-th step it has not scripted, the first after a
load among them. Nothing in Lean constrains it: KEY is whatever the host sets (R240), TICK a free Boolean (D19), RND any byte (D20). -/
opaque Config.hostInputs : Nat → HostInputs

end Sys2Proof
end

