-- ==== Sys2Proof/Machine/State.lean ====
section
/-! DEFINITION. The state: the spec's Machine record (10_state.md), the step's inputs and outputs (R31 to R34, R241), and the
state after reset (R38). Plain data throughout. -/

namespace Sys2Proof.Machine

/-- FAULT.CAUSE (R35, R230). `code` below gives the 3-bit code of each. -/
inductive FaultCause where
  /-- 0 NONE: no fault. -/
  | noFault
  /-- 1 STACK_OVERFLOW: 2nnn with SP = 15 (R124). -/
  | stackOverflow
  /-- 2 STACK_UNDERFLOW: 00EE with SP = 0 (R122). -/
  | stackUnderflow
  /-- 3 MEM_BOUNDS_READ: Fx65 past the end of memory (R215). -/
  | memBoundsRead
  /-- 4 MEM_BOUNDS_WRITE: Fx33 or Fx55 past the end of memory (R213, R214). -/
  | memBoundsWrite
deriving DecidableEq, Repr

/-- The FAULT register (R35): the cause, the PC of the faulting instruction and its word. -/
structure FaultReg where
  cause : FaultCause
  fpc   : Word
  fword : Word
deriving DecidableEq, Repr

/-- Memory (R50): the bytes that differ from what the load of an empty ROM leaves, addresses strictly rising.
An address not listed reads as `Config.resetByte`. -/
abbrev Memory := List Host.Cell

/-- SCREEN (R28): 32 rows of 64 pixels, row 0 first and column 0 first within a row; true is on. -/
abbrev Screen := Vector (Vector Bool Config.screenW) Config.screenH

/-- The Machine: everything the core owns (10_state.md introduction, R36). -/
structure Mach where
  /-- V0..VF (R20). -/
  v      : Vector Byte Config.numV
  /-- The index register I (R25). -/
  i      : Word
  /-- PC (R23). -/
  pc     : Word
  /-- SP (R26). -/
  sp     : Nibble
  /-- STACK (R27). -/
  stack  : Vector Word Config.stackSlots
  /-- SCREEN (R28). -/
  screen : Screen
  /-- The delay timer DT (R29). -/
  dt     : Byte
  /-- The sound timer ST (R30). -/
  st     : Byte
  /-- memory (R50). -/
  mem    : Memory
  /-- FAULT (R35). -/
  fault  : FaultReg
deriving DecidableEq, Repr

/-- The inputs of a step (R100): KEY (R32), TICK (R31), RND (R33). -/
structure StepInputs where
  key  : Option Nibble
  tick : Bool
  rnd  : Byte
deriving DecidableEq, Repr

/-- The outputs of the last step (R100): KEY_CLEAR (R243), CHANGED (R110), TICK_ACK (R108). -/
structure StepOutputs where
  keyClear : Bool
  changed  : Bool
  tickAck  : Bool
deriving DecidableEq, Repr

/-- Why the model's step stops. Every fault of the spec is a next state with the FAULT register written (R231), not this. -/
inductive Fault where
  /-- The fetch found no byte at PC or PC + 1. Raised by `step` alone, and unreachable, because fetch is always in bounds (R56).
  Safe: it stops where no hardware behaviour is lost. -/
  | fetchOutsideMemory
deriving DecidableEq, Repr

/-- Why the model has no answer. -/
inductive Refusal where
  /-- An instruction the model gives no meaning. Raised by a refused arm of `exec`, of which there is none. Safe: it stops. -/
  | notModelled (mnemonic : String)
deriving DecidableEq, Repr

/-- The whole state of the model: the Machine, the step's inputs and outputs, and where the host's next inputs come from. -/
structure State where
  /-- The Machine (R36). -/
  mach   : Mach
  /-- KEY, TICK and RND: what the host presented to the step under way, KEY as that step leaves the slot (R100, R243). The next step
  begins with the host's presentation of its own. -/
  inp    : StepInputs
  /-- KEY_CLEAR, CHANGED and TICK_ACK, as the last step reported them (R100). -/
  out    : StepOutputs
  /-- The MODEL's own (log entry 1): a fixed sequence of inputs the host injects, read first (R33, R244). -/
  script : List HostInputs
  /-- The MODEL's own (log entry 1): how many free inputs have been drawn from `Config.hostInputs`. -/
  draws  : Nat
deriving DecidableEq, Repr

/-- The Machine right after the load of an empty ROM (R38, R260). -/
def Mach.reset : Mach where
  v      := Vector.replicate Config.numV 0
  i      := 0
  pc     := Config.pcReset
  sp     := 0
  stack  := Vector.replicate Config.stackSlots 0
  screen := Vector.replicate Config.screenH (Vector.replicate Config.screenW false)
  dt     := 0
  st     := 0
  mem    := []
  fault  := ⟨.noFault, 0, 0⟩

/-- The state right after reset (R38). DESIGN CHOICE (log entries 1, 2, 3): no step has been taken, so KEY is none, no tick is
outstanding, RND is 0, the outputs are false, and the host has scripted nothing. The first step sees none of these but begins, as
every step, with the inputs the host presents (R240). -/
def State.reset : State where
  mach   := Mach.reset
  inp    := ⟨none, false, 0⟩
  out    := ⟨false, false, false⟩
  script := []
  draws  := 0

end Sys2Proof.Machine
end

