-- ==== Sys2Proof/Machine/Ops.lean ====
section
/-! DEFINITION. The named operations over memory, registers, stack and timers; the three ends of a handler (R104), taking a
fault among them (R111, R231); the host's part before a step (R240); the load (R260); fetching a word (R102). -/

namespace Sys2Proof.Machine

/-! ### Memory (20_memory.md) -/

/-- The byte a memory holds at an address. -/
def Memory.lookup : Memory → Nat → Byte
  | [], a => Config.resetByte a
  | (b, v) :: rest, a => if a = b then v else Memory.lookup rest a

/-- `MemRead(a, 1)`: none where the address does not exist (R52). -/
def Memory.read (m : Memory) (a : Nat) : Option Byte :=
  if a < Config.memSize then some (Memory.lookup m a) else none

/-- Take an address off the list, wherever it stands. -/
def Memory.erase : Memory → Nat → Memory
  | [], _ => []
  | (b, v) :: rest, a => if a = b then Memory.erase rest a else (b, v) :: Memory.erase rest a

/-- List an address with a value, in the order of addresses. -/
def Memory.insert : Memory → Nat → Byte → Memory
  | [], a, w => [(a, w)]
  | (b, v) :: rest, a, w =>
    if a < b then (a, w) :: (b, v) :: rest
    else if a = b then (a, w) :: rest
    else (b, v) :: Memory.insert rest a w

/-- `MemWrite(a, 1, w)` (R53). The callers check the bounds first; an address that does not exist is not written. -/
def Memory.write (m : Memory) (a : Nat) (w : Byte) : Memory :=
  if a < Config.memSize then
    if w = Config.resetByte a then Memory.erase m a else Memory.insert m a w
  else m

/-- Bytes written one after the other from an address on (R213, R214). -/
def Memory.writeBytes : Memory → Nat → List Byte → Memory
  | m, _, [] => m
  | m, a, w :: ws => Memory.writeBytes (Memory.write m a w) (a + 1) ws

/-- The canonical form: addresses strictly rising, each in the address space, none listed with the value it has unlisted. -/
abbrev Memory.wf (m : Memory) : Prop :=
  m.Pairwise (fun c d => c.1 < d.1) ∧ ∀ c ∈ m, c.1 < Config.memSize ∧ c.2 ≠ Config.resetByte c.1

/-! ### Registers and stack (10_state.md) -/

/-- `V[r]` (R9, R20). -/
def Mach.getV (m : Mach) (r : Nibble) : Byte := m.v[r.toNat]'r.isLt

/-- `V[r] <- b` (R9, R20): no register is hard-wired. -/
def Mach.setV (m : Mach) (r : Nibble) (b : Byte) : Mach := { m with v := m.v.set r.toNat b r.isLt }

/-- `I <- a` (R25). -/
def Mach.setI (m : Mach) (a : Word) : Mach := { m with i := a }

/-- `PC <- a` (R9, R23). -/
def Mach.setPc (m : Mach) (a : Word) : Mach := { m with pc := a }

/-- `DT <- b` (R29). -/
def Mach.setDt (m : Mach) (b : Byte) : Mach := { m with dt := b }

/-- `ST <- b` (R30). -/
def Mach.setSt (m : Mach) (b : Byte) : Mach := { m with st := b }

/-- `SCREEN <- s` (R28). -/
def Mach.setScreen (m : Mach) (s : Screen) : Mach := { m with screen := s }

/-- `STACK[j]` (R27). -/
def Mach.getStack (m : Mach) (j : Nibble) : Word := m.stack[j.toNat]'j.isLt

/-- `SP <- SP + 1`, then `STACK[SP] <- a` (R123). -/
def Mach.push (m : Mach) (a : Word) : Mach :=
  { m with sp := m.sp + 1, stack := m.stack.set (m.sp + 1).toNat a (m.sp + 1).isLt }

/-- `PC <- STACK[SP]`, then `SP <- SP - 1`; the slot is not cleared (R120). -/
def Mach.popPc (m : Mach) : Mach := { m with pc := m.getStack m.sp, sp := m.sp - 1 }

/-- The registers V0 to Vx, in order (R214). -/
def Mach.regsUpTo (m : Mach) (x : Nibble) : List Byte := m.v.toList.take (x.toNat + 1)

/-- Bytes stored into memory from I on; I is unchanged (R213, R214). -/
def Mach.storeAtI (m : Mach) (bs : List Byte) : Mach := { m with mem := Memory.writeBytes m.mem m.i.toNat bs }

/-- `V[k] <- MemRead(base + k, 1)` for one k (R215). -/
def Mach.loadReg (m : Mach) (k : Nat) : Mach :=
  match Memory.read m.mem (m.i.toNat + k) with
  | some b => { m with v := m.v.setIfInBounds k b }
  | none => m

/-- The registers V0 to Vx loaded from memory from I on; I is unchanged (R215). -/
def Mach.loadRegs (m : Mach) (x : Nibble) : Mach := (List.range (x.toNat + 1)).foldl Mach.loadReg m

/-! ### The tail (40_step_cycle.md) -/

/-- `satdec(v)` (R112). -/
def satdec (b : Byte) : Byte := if b = 0 then 0 else b - 1

/-- The timer tick: both timers together, if TICK (R108). -/
def Mach.tickTimers (m : Mach) (tick : Bool) : Mach :=
  if tick then { m with dt := satdec m.dt, st := satdec m.st } else m

/-- The PC advance: by 4 over a skipped word, else by 2 (R107). -/
def Mach.advancePc (m : Mach) (skip : Bool) : Mach := m.setPc (m.pc + if skip then 4 else 2)

/-- The key slot after a step: none if KEY_CLEAR, else KEY (R243). -/
def slotAfter (keyClear : Bool) (key : Option Nibble) : Option Nibble := if keyClear then none else key

/-- The state a tail leaves: the handler's Machine `m`, then the timer tick, the PC advance and the report (R106). -/
def State.afterTail (s : State) (m : Mach) (skip changed keyClear : Bool) : State :=
  { s with
    mach := (m.tickTimers s.inp.tick).advancePc skip
    inp  := { s.inp with key := slotAfter keyClear s.inp.key }
    out  := ⟨keyClear, changed, s.inp.tick⟩ }

/-- The state an early return leaves: the handler's Machine `m` and no tail; no early return reports a change (R104, R105). -/
def State.afterEarly (s : State) (m : Mach) : State := { s with mach := m, out := ⟨false, false, false⟩ }

/-- The state a fault leaves: FAULT <- (cause, PC, word) and nothing else; all outputs false (R111, R231). -/
def State.afterFault (s : State) (cause : FaultCause) (i : Instr) : State :=
  { s with mach := { s.mach with fault := ⟨cause, s.mach.pc, encode i⟩ }, out := ⟨false, false, false⟩ }

/-- `Tail(skip, changed)` (R106). -/
def State.tail (s : State) (m : Mach) (skip changed keyClear : Bool) : Host.Outcome State Fault Refusal :=
  .next (s.afterTail m skip changed keyClear)

/-- `Early(false)` (R105). -/
def State.early (s : State) (m : Mach) : Host.Outcome State Fault Refusal := .next (s.afterEarly m)

/-- TAKING A FAULT, the core's one exception (R111, R231). There is no return from it (R237): only a new load leaves the faulted
state (R232). -/
def State.raiseFault (s : State) (cause : FaultCause) (i : Instr) : Host.Outcome State Fault Refusal :=
  .next (s.afterFault cause i)

/-! ### The step (40_step_cycle.md) -/

/-- The `halted` status output: `PC >= HALT_PC` (R101, R234). -/
def Mach.halted (m : Mach) : Bool := Config.haltPc ≤ m.pc

/-- Whether FAULT.CAUSE ≠ 0 (R111). -/
def Mach.faulted (m : Mach) : Bool := m.fault.cause != .noFault

/-- The `fault_cause` output: the 3-bit code of a cause (R230, R241). -/
def FaultCause.code : FaultCause → BitVec 3
  | .noFault => 0
  | .stackOverflow => 1
  | .stackUnderflow => 2
  | .memBoundsRead => 3
  | .memBoundsWrite => 4

/-- The step of a halted or faulted core: the Machine is unchanged and the outputs are false (R101, R111). -/
def State.idle (s : State) : State := { s with out := ⟨false, false, false⟩ }

/-- The instruction word at PC, big-endian (R102). -/
def Mach.fetch (m : Mach) : Option Word :=
  match Memory.read m.mem m.pc.toNat, Memory.read m.mem (m.pc.toNat + 1) with
  | some hi, some lo => some (joinBytes hi lo)
  | _, _ => none

/-- The key slot after the host's action on it (R240). -/
def KeyAction.apply (a : KeyAction) (slot : Option Nibble) : Option Nibble :=
  match a with
  | .keep => slot
  | .release => none
  | .press k => some k

/-- The inputs of a step from what the host presents to it (R240). DEDUCED (R113 b, D19; log entry 1), safe: a tick that was
due and was not acknowledged stays due, because only an acknowledgement resets the timer reference. -/
def State.accept (s : State) (h : HostInputs) : State :=
  { s with inp := ⟨KeyAction.apply h.key s.inp.key, (s.inp.tick && !s.out.tickAck) || h.tick, h.rnd⟩ }

/-- The host presents the inputs of a step, before it, the first after a load too: the first of its fixed sequence, or, when there
is none, a free value (R33, R240, R244; log entry 1). -/
def State.present (s : State) : State :=
  match s.script with
  | h :: rest => { s.accept h with script := rest }
  | [] => { s.accept (Config.hostInputs s.draws) with draws := s.draws + 1 }

/-! ### The load (70_reset_and_hazards.md) -/

/-- The load of a ROM image: a fresh Machine with the font and the first 3583 bytes of the ROM (R260, R263). -/
def State.load (rom : List Byte) : State :=
  { State.reset with mach := { Mach.reset with mem := Memory.writeBytes [] Config.romBase (rom.take Config.romMax) } }

/-- The load transaction: none, standing for `load_error`, if the ROM source cannot be read (R261). -/
def State.loadFrom (source : Option (List Byte)) : Option State := source.map State.load

/-! ### Placing a word where the next fetch reads it -/

/-- A Machine with an instruction word stored big-endian at PC and PC + 1 (R55, R102). -/
def Mach.placeWord (m : Mach) (w : Word) : Mach :=
  { m with mem := Memory.writeBytes m.mem m.pc.toNat [(splitWord w).1, (splitWord w).2] }

end Sys2Proof.Machine
end

