-- ==== Sys2Proof/Machine/Flags.lean ====
section
/-! DEFINITION. The results and the VF flag of the arithmetic and shift operations (R147 to R151, R154), computed exactly and
then narrowed, and the write of both in the spec's order (R10, R142). -/

namespace Sys2Proof.Machine

/-- The flag register VF (R21). -/
def vf : Nibble := 0xF

/-- A flag as the byte VF receives: 1 or 0. -/
def flagByte (f : Bool) : Byte := if f then 1 else 0

/-- The sum modulo 256 and the carry out of bit 7 (R147). -/
def addWithCarry (a b : Byte) : Byte × Bool :=
  (BitVec.ofNat 8 (a.toNat + b.toNat), decide (a.toNat + b.toNat > 255))

/-- The difference modulo 256 and NOT borrow (R148, R150). -/
def subNotBorrow (a b : Byte) : Byte × Bool :=
  (BitVec.ofInt 8 ((a.toNat : Int) - (b.toNat : Int)), !decide (a.toNat < b.toNat))

/-- The byte shifted right by one and the evicted bit 0 (R149). -/
def shiftRight (b : Byte) : Byte × Bool := (b >>> 1, b.getLsbD 0)

/-- The byte shifted left by one and the evicted bit 7 (R151). -/
def shiftLeft (b : Byte) : Byte × Bool := (b <<< 1, b.getLsbD 7)

/-- `V[x]` receives the result, then VF the flag, so that VF holds the flag even when x = 0xF (R10, R142). -/
def Mach.setResult (m : Mach) (x : Nibble) (r : Byte × Bool) : Mach := (m.setV x r.1).setV vf (flagByte r.2)

end Sys2Proof.Machine
end

