-- ==== Sys2Proof/Machine/Operands.lean ====
section
/-! DEFINITION. The operand forms: immediates and register values widened, the computed jump, sprite coordinates, the font
address, decimal digits, key comparison and the bounds of an I-based access (R54, R72). -/

namespace Sys2Proof.Machine

/-- `zext_16(nnn)` (R72). -/
def addrOf (nnn : Imm12) : Word := nnn.setWidth 16

/-- `zext_16(b)` (R9). -/
def wordOf (b : Byte) : Word := b.setWidth 16

/-- `zext_16(nnn) + zext_16(V[0])` (R126). -/
def Mach.addrPlusV0 (m : Mach) (nnn : Imm12) : Word := addrOf nnn + wordOf (m.getV 0)

/-- `I + zext_16(V[x])`, modulo 2^16 (R211). -/
def Mach.iPlus (m : Mach) (x : Nibble) : Word := m.i + wordOf (m.getV x)

/-- `5 * zext_16(V[x])`, V[x] not masked (R212). -/
def Mach.glyphAddr (m : Mach) (x : Nibble) : Word := Config.glyphStride * wordOf (m.getV x)

/-- `V[x] mod 64` (R171). -/
def Mach.column (m : Mach) (x : Nibble) : Nat := (m.getV x).toNat % Config.screenW

/-- `V[y] mod 32` (R171). -/
def Mach.row (m : Mach) (y : Nibble) : Nat := (m.getV y).toNat % Config.screenH

/-- The hundreds, tens and ones digits of a byte (R213). -/
def decimalDigits (b : Byte) : List Byte :=
  [BitVec.ofNat 8 (b.toNat / 100), BitVec.ofNat 8 (b.toNat / 10 % 10), BitVec.ofNat 8 (b.toNat % 10)]

/-- `zext_8(k)`: a key as a byte (44_keys.md introduction). -/
def keyByte (k : Nibble) : Byte := k.setWidth 8

/-- Whether the held key equals V[x] (R190, R191). -/
def State.keyMatches (s : State) (x : Nibble) : Bool :=
  match s.inp.key with
  | some k => keyByte k == s.mach.getV x
  | none => false

/-- Whether the bytes I + 0 to I + k are all inside memory (R54). -/
def Mach.reachable (m : Mach) (k : Nat) : Bool := decide (m.i.toNat + k < Config.memSize)

end Sys2Proof.Machine
end

