-- ==== Sys2Proof/Machine/Alu.lean ====
section
/-! DEFINITION. Register loads and ALU (42_alu.md). Every one ends in `Tail(false, false)`. -/

namespace Sys2Proof.Machine

/-- A handler that changes the Machine and ends in `Tail(false, false)` (R104). -/
def State.done (s : State) (m : Mach) : Host.Outcome State Fault Refusal := s.tail m false false false

/-- 6xkk (R140). -/
def execLdImm (x : Nibble) (kk : Byte) (s : State) : Host.Outcome State Fault Refusal :=
  s.done (s.mach.setV x kk)

/-- 7xkk: no flag (R141). -/
def execAddImm (x : Nibble) (kk : Byte) (s : State) : Host.Outcome State Fault Refusal :=
  s.done (s.mach.setV x (s.mach.getV x + kk))

/-- 8xy0: no flag (R143). -/
def execLdReg (x y : Nibble) (s : State) : Host.Outcome State Fault Refusal :=
  s.done (s.mach.setV x (s.mach.getV y))

/-- 8xy1: no flag (R144). -/
def execOrReg (x y : Nibble) (s : State) : Host.Outcome State Fault Refusal :=
  s.done (s.mach.setV x (s.mach.getV x ||| s.mach.getV y))

/-- 8xy2: no flag (R145). -/
def execAndReg (x y : Nibble) (s : State) : Host.Outcome State Fault Refusal :=
  s.done (s.mach.setV x (s.mach.getV x &&& s.mach.getV y))

/-- 8xy3: no flag (R146). -/
def execXorReg (x y : Nibble) (s : State) : Host.Outcome State Fault Refusal :=
  s.done (s.mach.setV x (s.mach.getV x ^^^ s.mach.getV y))

/-- 8xy4 (R147). -/
def execAddReg (x y : Nibble) (s : State) : Host.Outcome State Fault Refusal :=
  s.done (s.mach.setResult x (addWithCarry (s.mach.getV x) (s.mach.getV y)))

/-- 8xy5 (R148). -/
def execSub (x y : Nibble) (s : State) : Host.Outcome State Fault Refusal :=
  s.done (s.mach.setResult x (subNotBorrow (s.mach.getV x) (s.mach.getV y)))

/-- 8xy6: shifts Vy (R149). -/
def execShr (x y : Nibble) (s : State) : Host.Outcome State Fault Refusal :=
  s.done (s.mach.setResult x (shiftRight (s.mach.getV y)))

/-- 8xy7: the operands reversed (R150). -/
def execSubn (x y : Nibble) (s : State) : Host.Outcome State Fault Refusal :=
  s.done (s.mach.setResult x (subNotBorrow (s.mach.getV y) (s.mach.getV x)))

/-- 8xyE: shifts Vy (R151). -/
def execShl (x y : Nibble) (s : State) : Host.Outcome State Fault Refusal :=
  s.done (s.mach.setResult x (shiftLeft (s.mach.getV y)))

/-- Cxkk: RND is the step's free input (R153; log entry 1). -/
def execRnd (x : Nibble) (kk : Byte) (s : State) : Host.Outcome State Fault Refusal :=
  s.done (s.mach.setV x (kk &&& s.inp.rnd))

end Sys2Proof.Machine
end

