-- ==== Sys2Proof/Machine/Control.lean ====
section
/-! DEFINITION. Control flow: return, jump, call, computed jump, skips (41_control_flow.md). -/

namespace Sys2Proof.Machine

/-- 00EE (R120, R122). -/
def execRet (s : State) : Host.Outcome State Fault Refusal :=
  if s.mach.sp = 0 then s.raiseFault .stackUnderflow .ret
  else s.early s.mach.popPc

/-- 1nnn (R121). -/
def execJp (nnn : Imm12) (s : State) : Host.Outcome State Fault Refusal :=
  s.early (s.mach.setPc (addrOf nnn))

/-- 2nnn (R123, R124). -/
def execCall (nnn : Imm12) (s : State) : Host.Outcome State Fault Refusal :=
  if s.mach.sp = Config.stackDepth then s.raiseFault .stackOverflow (.call nnn)
  else s.early ((s.mach.push (s.mach.pc + 2)).setPc (addrOf nnn))

/-- Bnnn (R126). -/
def execJpV0 (nnn : Imm12) (s : State) : Host.Outcome State Fault Refusal :=
  s.early (s.mach.setPc (s.mach.addrPlusV0 nnn))

/-- A skip instruction: `Tail(condition, false)` with nothing written (41_control_flow.md section 2). -/
def State.skipIf (s : State) (condition : Bool) : Host.Outcome State Fault Refusal :=
  s.tail s.mach condition false false

/-- 3xkk (R127). -/
def execSeImm (x : Nibble) (kk : Byte) (s : State) : Host.Outcome State Fault Refusal :=
  s.skipIf (s.mach.getV x == kk)

/-- 4xkk (R128). -/
def execSneImm (x : Nibble) (kk : Byte) (s : State) : Host.Outcome State Fault Refusal :=
  s.skipIf (s.mach.getV x != kk)

/-- 5xyN: the low nibble is ignored (R129; the spec's decision D7). -/
def execSeReg (x y _n : Nibble) (s : State) : Host.Outcome State Fault Refusal :=
  s.skipIf (s.mach.getV x == s.mach.getV y)

/-- 9xyN: the low nibble is ignored (R130; the spec's decision D7). -/
def execSneReg (x y _n : Nibble) (s : State) : Host.Outcome State Fault Refusal :=
  s.skipIf (s.mach.getV x != s.mach.getV y)

end Sys2Proof.Machine
end

