-- ==== Sys2Proof/Machine/Display.lean ====
section
/-! DEFINITION. The framebuffer controller: clear, draw and the render port (43_display.md). -/

namespace Sys2Proof.Machine

/-- `SCREEN[x][y]`: column x, row y; off outside the grid (R28). -/
def Screen.pixel (scr : Screen) (x y : Nat) : Bool :=
  if h : x < Config.screenW ∧ y < Config.screenH then (scr[y]'h.2)[x]'h.1 else false

/-- `SCREEN[x][y] <- SCREEN[x][y] XOR 1`; nothing outside the grid (R171, R173). -/
def Screen.toggle (scr : Screen) (x y : Nat) : Screen :=
  if h : x < Config.screenW ∧ y < Config.screenH then
    scr.set y ((scr[y]'h.2).set x (!(scr[y]'h.2)[x]'h.1) h.1) h.2
  else scr

/-- Every pixel off (R170). -/
def Screen.blank : Screen := Vector.replicate Config.screenH (Vector.replicate Config.screenW false)

/-- What a draw has done so far: the screen, and whether an on-pixel was turned off. -/
abbrev Drawing := Screen × Bool

/-- One sprite bit at a pixel: dropped if it is clear or off the grid; else it notes a collision and toggles (R171, R173). -/
def drawBit (bit : Bool) (px py : Nat) (d : Drawing) : Drawing :=
  if bit = true ∧ px < Config.screenW ∧ py < Config.screenH then
    (Screen.toggle d.1 px py, d.2 || Screen.pixel d.1 px py)
  else d

/-- One sprite row byte from column x0 on: bit 7 is the leftmost pixel (R171, R172). -/
def drawRow (row : Byte) (x0 py : Nat) (d : Drawing) : Drawing :=
  (List.range 8).foldl (fun d c => drawBit (row.getLsbD (7 - c)) (x0 + c) py d) d

/-- The n rows of a sprite at `base`; a row outside memory is dropped (R171, R173). -/
def drawSprite (mem : Memory) (base x0 y0 n : Nat) (d : Drawing) : Drawing :=
  (List.range n).foldl
    (fun d r =>
      match Memory.read mem (base + r) with
      | some row => drawRow row x0 (y0 + r) d
      | none => d)
    d

/-- 00E0 (R170). -/
def execCls (s : State) : Host.Outcome State Fault Refusal :=
  s.tail (s.mach.setScreen Screen.blank) false true false

/-- The drawing of Dxyn: the coordinates, I and the screen are read before anything is written (R10, R171). -/
def Mach.drawn (m : Mach) (x y n : Nibble) : Drawing :=
  drawSprite m.mem m.i.toNat (m.column x) (m.row y) n.toNat (m.screen, false)

/-- Dxyn (R171 to R173). -/
def execDrw (x y n : Nibble) (s : State) : Host.Outcome State Fault Refusal :=
  s.tail ((s.mach.setScreen (s.mach.drawn x y n).1).setV vf (flagByte (s.mach.drawn x y n).2)) false true false

/-- The four bytes of a pixel (R175). -/
def pixelBytes (on : Bool) : List Byte := if on then Config.colorOn else Config.colorOff

/-- The render port: row-major, row 0 first and column 0 first, four bytes a pixel,
`Config.renderBytes` in all (R174). -/
def Screen.render (scr : Screen) : List Byte :=
  scr.toList.flatMap (fun row => row.toList.flatMap pixelBytes)

/-- `render` of a state: a pure function of SCREEN (R174). -/
def State.render (s : State) : List Byte := Screen.render s.mach.screen

end Sys2Proof.Machine
end

