-- ==== Sys2Proof/Machine/IndexMemory.lean ====
section
/-! DEFINITION. The index register and the memory instructions (46_index_memory.md). -/

namespace Sys2Proof.Machine

/-- Annn (R210; the spec's decision D5). -/
def execLdI (nnn : Imm12) (s : State) : Host.Outcome State Fault Refusal :=
  s.done (s.mach.setI (addrOf nnn))

/-- Fx1E: modulo 2^16, no flag (R211). -/
def execAddI (x : Nibble) (s : State) : Host.Outcome State Fault Refusal :=
  s.done (s.mach.setI (s.mach.iPlus x))

/-- Fx29 (R212). -/
def execLdF (x : Nibble) (s : State) : Host.Outcome State Fault Refusal :=
  s.done (s.mach.setI (s.mach.glyphAddr x))

/-- Fx33: the bounds are checked before any write (R213). -/
def execLdB (x : Nibble) (s : State) : Host.Outcome State Fault Refusal :=
  if s.mach.reachable 2 then s.done (s.mach.storeAtI (decimalDigits (s.mach.getV x)))
  else s.raiseFault .memBoundsWrite (.ldB x)

/-- Fx55: the bounds are checked before any write (R214). -/
def execLdMemStore (x : Nibble) (s : State) : Host.Outcome State Fault Refusal :=
  if s.mach.reachable x.toNat then s.done (s.mach.storeAtI (s.mach.regsUpTo x))
  else s.raiseFault .memBoundsWrite (.ldMemStore x)

/-- Fx65: the bounds are checked before any write (R215). -/
def execLdMemLoad (x : Nibble) (s : State) : Host.Outcome State Fault Refusal :=
  if s.mach.reachable x.toNat then s.done (s.mach.loadRegs x)
  else s.raiseFault .memBoundsRead (.ldMemLoad x)

end Sys2Proof.Machine
end

