-- ==== Sys2Proof/Machine/Keys.lean ====
section
/-! DEFINITION. The key-input instructions (44_keys.md). The last argument of `State.tail` is KEY_CLEAR. -/

namespace Sys2Proof.Machine

/-- Ex9E: the match skips and consumes the key (R190). -/
def execSkp (x : Nibble) (s : State) : Host.Outcome State Fault Refusal :=
  s.tail s.mach (s.keyMatches x) false (s.keyMatches x)

/-- ExA1: skips unless the held key matches; KEY_CLEAR only where no key is held (R191; the spec's decision D10). -/
def execSknp (x : Nibble) (s : State) : Host.Outcome State Fault Refusal :=
  s.tail s.mach (!s.keyMatches x) false s.inp.key.isNone

/-- Fx0A: waits without a tail while no key is held, else takes the key (R192; the spec's decision D9). -/
def execLdK (x : Nibble) (s : State) : Host.Outcome State Fault Refusal :=
  .next (match s.inp.key with
    | none => s.afterEarly s.mach
    | some k => s.afterTail (s.mach.setV x (keyByte k)) false false true)

end Sys2Proof.Machine
end

