-- ==== Sys2Proof/Machine/Timers.lean ====
section
/-! DEFINITION. The timer instructions (45_timers.md). The tick of the same step runs after each of them (R108). -/

namespace Sys2Proof.Machine

/-- Fx07: V[x] receives DT as it was before this step's tick (R200). -/
def execLdVxDt (x : Nibble) (s : State) : Host.Outcome State Fault Refusal :=
  s.done (s.mach.setV x s.mach.dt)

/-- Fx15 (R201). -/
def execLdDtVx (x : Nibble) (s : State) : Host.Outcome State Fault Refusal :=
  s.done (s.mach.setDt (s.mach.getV x))

/-- Fx18 (R202). -/
def execLdStVx (x : Nibble) (s : State) : Host.Outcome State Fault Refusal :=
  s.done (s.mach.setSt (s.mach.getV x))

end Sys2Proof.Machine
end

