-- ==== Sys2Proof/Machine/Undefined.lean ====
section
/-! DEFINITION. The undefined codes: silent no-ops that reach the tail (R109). -/

namespace Sys2Proof.Machine

/-- Other 0nnn (R74, R109). -/
def execNop0 (_nnn : Imm12) (s : State) : Host.Outcome State Fault Refusal := s.done s.mach

/-- Other 8xyN (R75, R109). -/
def execNop8 (_x _y _n : Nibble) (s : State) : Host.Outcome State Fault Refusal := s.done s.mach

/-- Other Exkk: the key slot is neither read nor cleared (R109, R193). -/
def execNopE (_x : Nibble) (_kk : Byte) (s : State) : Host.Outcome State Fault Refusal := s.done s.mach

/-- Other Fxkk (R109, R217). -/
def execNopF (_x : Nibble) (_kk : Byte) (s : State) : Host.Outcome State Fault Refusal := s.done s.mach

end Sys2Proof.Machine
end

