-- ==== Sys2Proof/Machine/Step.lean ====
section
/-! DEFINITION. The step (R112): the host presents its inputs (R240), then an existing fault first, then the halt check, then fetch,
decode and execute (R233). -/

namespace Sys2Proof.Machine

/-- The step on the inputs presented: `step(M, KEY, TICK, RND)` of R112. -/
def stepPresented (s : State) : Host.Outcome State Fault Refusal :=
  if s.mach.faulted then .next s.idle
  else if s.mach.halted then .next s.idle
  else
    match s.mach.fetch with
    | some w => exec (decode w) s
    | none => .fault .fetchOutsideMemory

/-- One `step` transaction (R100), with what the host presents to it (R240). -/
def step (s : State) : Host.Outcome State Fault Refusal := stepPresented s.present

/-- A state with an instruction word stored where the next step fetches: at PC and PC + 1 (R102). -/
def State.withFetchWord (s : State) (nbits w : Nat) : State :=
  { s with mach := s.mach.placeWord (tableWord nbits w) }

end Sys2Proof.Machine
end

