-- ==== Sys2Proof/Safety.lean ====
section
/-! DEFINITION. The terms claims are stated in: a running core, what an instruction leaves unchanged, which registers it may
write, where it reaches the tail, where it faults, and the invariant of the machine. Each is written from the spec's own
tables (R22, R104, R230), apart from the meanings. -/

namespace Sys2Proof.Safety

open Sys2Proof.Machine

/-- A step of this state fetches and executes: no fault is recorded and PC is below 0xFFE (R101, R111, R233). -/
def Running (s : State) : Prop := s.mach.fault.cause = .noFault ∧ s.mach.pc.toNat < 0xFFE

/-- Every general register outside `d` is unchanged. -/
def SameRegistersExcept (d : List Nibble) (s t : State) : Prop :=
  ∀ r, r ∉ d → t.mach.getV r = s.mach.getV r

/-- Every byte of memory is unchanged. -/
def SameMemory (s t : State) : Prop := ∀ a, Memory.read t.mach.mem a = Memory.read s.mach.mem a

/-- Every byte of memory outside the `n` bytes from `a` on is unchanged. -/
def SameMemoryOutside (a n : Nat) (s t : State) : Prop :=
  ∀ b, (b < a ∨ a + n ≤ b) → Memory.read t.mach.mem b = Memory.read s.mach.mem b

/-- SP and every stack slot are unchanged. -/
def SameStack (s t : State) : Prop :=
  t.mach.sp = s.mach.sp ∧ ∀ j, t.mach.getStack j = s.mach.getStack j

/-- Every pixel is unchanged. -/
def SameScreen (s t : State) : Prop :=
  ∀ x y, Screen.pixel t.mach.screen x y = Screen.pixel s.mach.screen x y

/-- DT and ST are as the instruction found them, when no tick is due. What a due tick does to them is a statement of its own. -/
def SameTimersUnlessTick (s t : State) : Prop :=
  s.inp.tick = false → t.mach.dt = s.mach.dt ∧ t.mach.st = s.mach.st

/-- The FAULT register, the key slot and everything on the host's side are unchanged; KEY_CLEAR is false. -/
def SameFaultKeyHost (s t : State) : Prop :=
  t.mach.fault = s.mach.fault ∧ t.inp = s.inp ∧ t.out.keyClear = false ∧ t.script = s.script ∧ t.draws = s.draws

/-- The frame of an instruction that writes at most the general registers in `d`, besides PC, a due tick and the outputs. -/
def OnlyRegisters (d : List Nibble) (s t : State) : Prop :=
  SameRegistersExcept d s t ∧ t.mach.i = s.mach.i ∧ SameMemory s t ∧ SameStack s t ∧ SameScreen s t ∧
  SameTimersUnlessTick s t ∧ SameFaultKeyHost s t

/-- The frame of an instruction that writes at most I, besides PC, a due tick and the outputs. -/
def OnlyIndex (s t : State) : Prop :=
  SameRegistersExcept [] s t ∧ SameMemory s t ∧ SameStack s t ∧ SameScreen s t ∧
  SameTimersUnlessTick s t ∧ SameFaultKeyHost s t

/-- The frame of an instruction that writes at most the `n` bytes of memory from `a` on, besides PC, a due tick and the outputs. -/
def OnlyBytes (a n : Nat) (s t : State) : Prop :=
  SameRegistersExcept [] s t ∧ t.mach.i = s.mach.i ∧ SameMemoryOutside a n s t ∧ SameStack s t ∧ SameScreen s t ∧
  SameTimersUnlessTick s t ∧ SameFaultKeyHost s t

/-- The frame of an instruction that writes at most SCREEN and the general registers in `d`, besides PC, a due tick and the
outputs. -/
def OnlyScreenAnd (d : List Nibble) (s t : State) : Prop :=
  SameRegistersExcept d s t ∧ t.mach.i = s.mach.i ∧ SameMemory s t ∧ SameStack s t ∧
  SameTimersUnlessTick s t ∧ SameFaultKeyHost s t

/-- The frame of an instruction that writes at most the timers, besides PC and the outputs. -/
def OnlyTimers (s t : State) : Prop :=
  SameRegistersExcept [] s t ∧ t.mach.i = s.mach.i ∧ SameMemory s t ∧ SameStack s t ∧ SameScreen s t ∧ SameFaultKeyHost s t

/-- The frame of an early return that may write PC, SP and the stack: the timers are unchanged even when a tick is due, and
every output is false (R105). -/
def OnlyPcAndStack (s t : State) : Prop :=
  SameRegistersExcept [] s t ∧ t.mach.i = s.mach.i ∧ SameMemory s t ∧ SameScreen s t ∧
  t.mach.dt = s.mach.dt ∧ t.mach.st = s.mach.st ∧ SameFaultKeyHost s t ∧ t.out = ⟨false, false, false⟩

/-- The frame of a key instruction that writes at most the registers in `d`, PC, the key slot, a due tick and the outputs. -/
def OnlyKeyAnd (d : List Nibble) (s t : State) : Prop :=
  SameRegistersExcept d s t ∧ t.mach.i = s.mach.i ∧ SameMemory s t ∧ SameStack s t ∧ SameScreen s t ∧
  SameTimersUnlessTick s t ∧ t.mach.fault = s.mach.fault ∧ t.inp.tick = s.inp.tick ∧ t.inp.rnd = s.inp.rnd ∧
  t.script = s.script ∧ t.draws = s.draws

/-- PC advanced by 2 and no display change reported: what `Tail(false, false)` leaves besides the timers (R106, R107). -/
def AdvancesQuietly (s t : State) : Prop := t.mach.pc = s.mach.pc + 2 ∧ t.out.changed = false

/-- The general registers an instruction may write, from the table of R22. -/
def destinations : Instr → List Nibble
  | .ldImm x _ | .addImm x _ | .ldReg x _ | .orReg x _ | .andReg x _ | .xorReg x _ | .rnd x _ | .ldVxDt x | .ldK x => [x]
  | .addReg x _ | .sub x _ | .shr x _ | .subn x _ | .shl x _ => [x, 0xF]
  | .drw _ _ _ => [0xF]
  | .ldMemLoad x => (List.range (x.toNat + 1)).map (BitVec.ofNat 4)
  | .cls | .ret | .nop0 _ | .jp _ | .call _ | .seImm _ _ | .sneImm _ _ | .seReg _ _ _ | .nop8 _ _ _ | .sneReg _ _ _
  | .ldI _ | .jpV0 _ | .skp _ | .sknp _ | .nopE _ _ | .ldDtVx _ | .ldStVx _ | .addI _ | .ldF _ | .ldB _
  | .ldMemStore _ | .nopF _ _ => []

/-- The fault an instruction raises in a state, from the table of R230. -/
def faultOf (i : Instr) (s : State) : Option FaultCause :=
  match i with
  | .call _ => if s.mach.sp.toNat = 15 then some .stackOverflow else none
  | .ret => if s.mach.sp.toNat = 0 then some .stackUnderflow else none
  | .ldMemLoad x => if s.mach.i.toNat + x.toNat ≥ 4095 then some .memBoundsRead else none
  | .ldMemStore x => if s.mach.i.toNat + x.toNat ≥ 4095 then some .memBoundsWrite else none
  | .ldB _ => if s.mach.i.toNat + 2 ≥ 4095 then some .memBoundsWrite else none
  | .cls | .nop0 _ | .jp _ | .seImm _ _ | .sneImm _ _ | .seReg _ _ _ | .ldImm _ _ | .addImm _ _ | .ldReg _ _ | .orReg _ _
  | .andReg _ _ | .xorReg _ _ | .addReg _ _ | .sub _ _ | .shr _ _ | .subn _ _ | .shl _ _ | .nop8 _ _ _ | .sneReg _ _ _
  | .ldI _ | .jpV0 _ | .rnd _ _ | .drw _ _ _ | .skp _ | .sknp _ | .nopE _ _ | .ldVxDt _ | .ldK _ | .ldDtVx _ | .ldStVx _
  | .addI _ | .ldF _ | .nopF _ _ => none

/-- Whether an instruction returns early, from the table of R104: the four unconditional ones, and Fx0A without a key. -/
def returnsEarly (i : Instr) (s : State) : Bool :=
  match i with
  | .ret | .jp _ | .call _ | .jpV0 _ => true
  | .ldK _ => s.inp.key.isNone
  | .cls | .nop0 _ | .seImm _ _ | .sneImm _ _ | .seReg _ _ _ | .ldImm _ _ | .addImm _ _ | .ldReg _ _ | .orReg _ _
  | .andReg _ _ | .xorReg _ _ | .addReg _ _ | .sub _ _ | .shr _ _ | .subn _ _ | .shl _ _ | .nop8 _ _ _ | .sneReg _ _ _
  | .ldI _ | .rnd _ _ | .drw _ _ _ | .skp _ | .sknp _ | .nopE _ _ | .ldVxDt _ | .ldDtVx _ | .ldStVx _
  | .addI _ | .ldF _ | .ldB _ | .ldMemStore _ | .ldMemLoad _ | .nopF _ _ => false

/-- Whether an instruction reaches the tail: it neither returns early nor faults (R104, R106). -/
def reachesTail (i : Instr) (s : State) : Bool := !returnsEarly i s && (faultOf i s).isNone

/-- Whether an instruction is a conditional skip (R104). -/
def isSkip : Instr → Bool
  | .seImm _ _ | .sneImm _ _ | .seReg _ _ _ | .sneReg _ _ _ | .skp _ | .sknp _ => true
  | .cls | .ret | .nop0 _ | .jp _ | .call _ | .ldImm _ _ | .addImm _ _ | .ldReg _ _ | .orReg _ _ | .andReg _ _
  | .xorReg _ _ | .addReg _ _ | .sub _ _ | .shr _ _ | .subn _ _ | .shl _ _ | .nop8 _ _ _ | .ldI _ | .jpV0 _ | .rnd _ _
  | .drw _ _ _ | .nopE _ _ | .ldVxDt _ | .ldK _ | .ldDtVx _ | .ldStVx _ | .addI _ | .ldF _ | .ldB _ | .ldMemStore _
  | .ldMemLoad _ | .nopF _ _ => false

/-- DT as the tail of an instruction finds it: Fx15 has written it (R201), every other instruction leaves it (R29). -/
def dtBeforeTick (i : Instr) (s : State) : Byte :=
  match i with
  | .ldDtVx x => s.mach.getV x
  | _ => s.mach.dt

/-- ST as the tail of an instruction finds it: Fx18 has written it (R202), every other instruction leaves it (R30). -/
def stBeforeTick (i : Instr) (s : State) : Byte :=
  match i with
  | .ldStVx x => s.mach.getV x
  | _ => s.mach.st

/-- Whether a sprite of Dxyn has a set bit at the pixel (px, py): bit 7 − c of the byte at I + r, at column x0 + c and row
y0 + r, for a row inside memory (R171, R172, R173). -/
def SpriteBit (s : State) (x y n : Nibble) (px py : Nat) : Prop :=
  ∃ r c b, r < n.toNat ∧ c < 8 ∧ px = (s.mach.getV x).toNat % 64 + c ∧ py = (s.mach.getV y).toNat % 32 + r ∧
    Memory.read s.mach.mem (s.mach.i.toNat + r) = some b ∧ b.getLsbD (7 - c) = true

/-- What FAULT holds: nothing while there is no fault; else the PC, the word there, and the cause the instruction that the word
decodes to raises in this very state, which is below the halt boundary (R35, R230, R231). -/
def FaultRecorded (s : State) : Prop :=
  (s.mach.fault.cause = .noFault → s.mach.fault.fpc = 0 ∧ s.mach.fault.fword = 0) ∧
  (s.mach.fault.cause ≠ .noFault →
    s.mach.fault.fpc = s.mach.pc ∧ s.mach.pc.toNat < 0xFFE ∧ s.mach.fetch = some s.mach.fault.fword ∧
    faultOf (decode s.mach.fault.fword) s = some s.mach.fault.cause)

/-- The invariant of the machine: memory is canonical; PC is at most 0x10FE (R24); every return address is inside memory and
slot 0 is never written (R27); and FAULT holds what R231 records. -/
def MachineInv (s : State) : Prop :=
  Memory.wf s.mach.mem ∧ s.mach.pc.toNat ≤ 0x10FE ∧ (∀ j, (s.mach.getStack j).toNat ≤ 0xFFF) ∧
  s.mach.getStack 0 = 0 ∧ FaultRecorded s

end Sys2Proof.Safety
end

