-- ==== Sys2Proof/Certificates/Slice0/Obligations.lean ====
section
/-! DEFINITION. The statements for the provers. Every one is about all states, reachable or not, unless it names an invariant.
Where one rests on a decision the spec marks as its own (D<n>), on an inference it marks as derived, or on a choice of this model,
its docstring says so. "Advances quietly" and the frames are defined in Sys2Proof/Safety.lean. -/

open Sys2Proof Sys2Proof.Machine Sys2Proof.Safety

/-! ### Encoding -/

/-- Decoding the encoding of a well-formed instruction gives it back, every operand at every value (30_encoding.md; the keys rest
on the spec's decisions D6, D7, D8; that the ignored bits are kept is the model's choice, log entry 4). -/
def Obligations.EncodeThenDecodeGivesBack : Prop :=
  ∀ i : Instr, i.wellFormed = true → decode (encode i) = i

/-- Every word decodes to a well-formed instruction whose encoding is that word: no bit is dropped (30_encoding.md R79, R80; log
entry 4 for the ignored bits). -/
def Obligations.DecodeThenEncodeGivesBack : Prop :=
  ∀ w : Word, (decode w).wellFormed = true ∧ encode (decode w) = w

/-- The decoder agrees with the opcode map read as a table: the first row whose (w & mask) == match holds names the instruction
decoded (R79, which the spec marks as derived). -/
def Obligations.DecodeFollowsOpcodeMap : Prop :=
  ∀ w : Word, (selectRow w).map (·.mnemonic) = some (decode w).mnemonic

/-- Words written out in the spec's own examples decode to what they stand for, one a family (R123, R127, R140, R147, R171, R190,
R200, R210, R214 and the undefined code of R109). -/
def Obligations.SpecExampleWordsDecode : Prop :=
  decode 0x2300 = .call 0x300 ∧ decode 0x3342 = .seImm 3 0x42 ∧ decode 0x6A2F = .ldImm 0xA 0x2F ∧
  decode 0x8124 = .addReg 1 2 ∧ decode 0xD121 = .drw 1 2 1 ∧ decode 0xE29E = .skp 2 ∧ decode 0xF507 = .ldVxDt 5 ∧
  decode 0xA2F0 = .ldI 0x2F0 ∧ decode 0xF155 = .ldMemStore 1 ∧ decode 0x8008 = .nop8 0 0 8

/-- A decoder consumes exactly two bytes, the first of them bits 15:8, and answers nothing for fewer (R70). -/
def Obligations.DecoderConsumesTwoBytes : Prop :=
  (∀ hi lo rest, ∃ w : Word, w.toNat = hi.toNat * 256 + lo.toNat ∧ decodeBytes (hi :: lo :: rest) = .ok (decode w, rest)) ∧
  (∀ b, decodeBytes [b] = .error .truncated) ∧ decodeBytes [] = .error .truncated

/-! ### The step -/

/-- A running core reads the bytes at PC and PC + 1, both of which exist, as one big-endian word, and the step is `exec` of the
well-formed instruction it decodes to, on the inputs the host presents to the step (R102; `present` is the model's, log entry 1). -/
def Obligations.StepRunsTheDecodedInstruction : Prop :=
  ∀ s : State, Running s → ∃ (hi lo : Byte) (w : Word),
    Memory.read s.mach.mem s.mach.pc.toNat = some hi ∧ Memory.read s.mach.mem (s.mach.pc.toNat + 1) = some lo ∧
    w.toNat = hi.toNat * 256 + lo.toNat ∧ (decode w).wellFormed = true ∧
    step s = exec (decode w) s.present

/-- What the host's presentation does before a step: it leaves the Machine and the outputs; the key slot is left, emptied or
set; a tick that was due and not acknowledged stays due, and a fresh one is due only if the host says so; its fixed sequence is
read first (R113 b and R240; the spec marks R113 as derived and TICK as decision D19; `script` and the free inputs are the model's
choice, log entry 1). -/
def Obligations.HostPresentsTheNextInputs : Prop :=
  ∀ s : State, ∃ h : HostInputs,
    (s.script = [] → h = Config.hostInputs s.draws ∧ s.present.script = [] ∧ s.present.draws = s.draws + 1) ∧
    (∀ h' rest, s.script = h' :: rest → h = h' ∧ s.present.script = rest ∧ s.present.draws = s.draws) ∧
    s.present.mach = s.mach ∧ s.present.out = s.out ∧ s.present.inp.rnd = h.rnd ∧
    (h.key = .keep → s.present.inp.key = s.inp.key) ∧ (h.key = .release → s.present.inp.key = none) ∧
    (∀ k, h.key = .press k → s.present.inp.key = some k) ∧
    (s.inp.tick = true → s.out.tickAck = false → s.present.inp.tick = true) ∧
    ((s.inp.tick = false ∨ s.out.tickAck = true) → s.present.inp.tick = h.tick)

/-- The first step after a load sees whatever the host presents: the step on a freshly loaded core that the host presents KEY, TICK
and RND to is the step of R112 on exactly those three, for every KEY, TICK and RND, and with nothing scripted they are the first
free value (R240 on KEY and RND; TICK is the spec's decision D19; `script` and the free inputs are the model's, log entry 1). -/
def Obligations.FirstStepSeesTheHostsInputs : Prop :=
  ∀ rom : List Byte,
    (∀ inp : StepInputs, ∃ h : HostInputs,
      step { State.load rom with script := [h] } = stepPresented { State.load rom with inp := inp }) ∧
    step (State.load rom) = stepPresented { State.load rom with
      inp := ⟨KeyAction.apply (Config.hostInputs 0).key none, (Config.hostInputs 0).tick, (Config.hostInputs 0).rnd⟩, draws := 1 }

/-- A tick that is due at a step and that the step does not acknowledge is still due at the next step (R113 b, which the spec marks
as derived; TICK is its decision D19; log entry 1). -/
def Obligations.UnacknowledgedTickStaysDue : Prop :=
  ∀ s t u : State, step s = .next t → t.inp.tick = true → t.out.tickAck = false → step t = .next u → u.inp.tick = true

/-- A halted core never changes, however often it is stepped: the Machine is unchanged and every output is false (R101). -/
def Obligations.HaltedCoreNeverChanges : Prop :=
  ∀ (n : Nat) (s : State), 0xFFE ≤ s.mach.pc.toNat →
    ∃ t : State, Sys2Proof.core.run n s = .next t ∧ t.mach = s.mach ∧ (0 < n → t.out = ⟨false, false, false⟩)

/-- A faulted core never changes, wherever its PC is and however often it is stepped (60_exceptions.md section 1; the fault
mechanism is the spec's decision D15, the order of the checks D24). -/
def Obligations.FaultedCoreNeverChanges : Prop :=
  ∀ (n : Nat) (s : State), s.mach.fault.cause ≠ .noFault →
    ∃ t : State, Sys2Proof.core.run n s = .next t ∧ t.mach = s.mach ∧ (0 < n → t.out = ⟨false, false, false⟩)

/-- No step and no instruction stops the model: every one answers a next state, whatever the word (30_encoding.md section 5,
60_exceptions.md section 1; that the fetch is in bounds is R56, which the spec marks as derived). -/
def Obligations.NothingStopsTheMachine : Prop :=
  (∀ s : State, ∃ t, step s = .next t) ∧ (∀ (i : Instr) (s : State), ∃ t, exec i s = .next t)

/-! ### Rules over every instruction -/

/-- No instruction writes a general register outside its row of the table of R22 (which the spec marks as derived). -/
def Obligations.OnlyNamedRegistersChange : Prop :=
  ∀ (i : Instr) (s t : State) (r : Nibble), exec i s = .next t → r ∉ destinations i → t.mach.getV r = s.mach.getV r

/-- Only Fx33 and Fx55 write memory, and only the bytes at I to I + 2 and I to I + x (the table of R51, which the spec marks as
derived). -/
def Obligations.OnlyStoresWriteMemory : Prop :=
  ∀ (i : Instr) (s t : State) (a : Nat), exec i s = .next t →
    Memory.read t.mach.mem a ≠ Memory.read s.mach.mem a →
    (∃ x, i = .ldB x ∧ s.mach.i.toNat ≤ a ∧ a ≤ s.mach.i.toNat + 2) ∨
    (∃ x, i = .ldMemStore x ∧ s.mach.i.toNat ≤ a ∧ a ≤ s.mach.i.toNat + x.toNat)

/-- Only 2nnn and 00EE change SP, only 2nnn changes a slot of the stack, the one above SP, and no instruction writes slot 0
(10_state.md section 3: R26 and R27 rest on the spec's decision D22 and its own inference). -/
def Obligations.OnlyCallAndReturnTouchTheStack : Prop :=
  ∀ (i : Instr) (s t : State), exec i s = .next t →
    (t.mach.sp ≠ s.mach.sp → i = .ret ∨ ∃ nnn, i = .call nnn) ∧
    (∀ j, t.mach.getStack j ≠ s.mach.getStack j → (∃ nnn, i = .call nnn) ∧ j.toNat = s.mach.sp.toNat + 1) ∧
    t.mach.getStack 0 = s.mach.getStack 0

/-- A step reports CHANGED exactly when it executes 00E0 or Dxyn: not when the core is halted, faulted or waiting (R110). -/
def Obligations.ChangedExactlyOnClearAndDraw : Prop :=
  ∀ s t : State, step s = .next t →
    (t.out.changed = true ↔
      Running s ∧ ∃ w, s.mach.fetch = some w ∧ (decode w = .cls ∨ ∃ x y n, decode w = .drw x y n))

/-- A step that reports no change leaves every pixel and the whole render buffer as they were (R176, which the spec marks as
derived). -/
def Obligations.NoReportedChangeNoRenderedChange : Prop :=
  ∀ s t : State, step s = .next t → t.out.changed = false → SameScreen s t ∧ t.render = s.render

/-- The timers after every instruction: where it reaches the tail and a tick is due, both are one less, floored at 0, and the
tick is acknowledged; otherwise both are as the instruction left them (40_step_cycle.md section 3; the input TICK is the spec's
decision D19, the waiting Fx0A its decision D9). -/
def Obligations.TimersTickOnceInTheTail : Prop :=
  ∀ (i : Instr) (s t : State), exec i s = .next t →
    (reachesTail i s = true → s.inp.tick = true →
      t.mach.dt.toNat = (dtBeforeTick i s).toNat - 1 ∧ t.mach.st.toNat = (stBeforeTick i s).toNat - 1 ∧
      t.out.tickAck = true) ∧
    (reachesTail i s = true → s.inp.tick = false →
      t.mach.dt = dtBeforeTick i s ∧ t.mach.st = stBeforeTick i s ∧ t.out.tickAck = false) ∧
    (reachesTail i s = false → t.mach.dt = s.mach.dt ∧ t.mach.st = s.mach.st ∧ t.out.tickAck = false)

/-- The key slot after every instruction: none if KEY_CLEAR, else KEY; and KEY_CLEAR exactly on the match of Ex9E, on ExA1 with
no key, and on Fx0A with a key (60_exceptions.md R243; the branch of ExA1 is the spec's decision D10). -/
def Obligations.KeySlotClearedOnlyByKeyInstructions : Prop :=
  ∀ (i : Instr) (s t : State), exec i s = .next t →
    t.inp.key = (if t.out.keyClear then none else s.inp.key) ∧
    (t.out.keyClear = true ↔
      (∃ x k, i = .skp x ∧ s.inp.key = some k ∧ k.toNat = (s.mach.getV x).toNat) ∨
      (∃ x, i = .sknp x ∧ s.inp.key = none) ∨
      (∃ x k, i = .ldK x ∧ s.inp.key = some k))

/-- Only Cxkk reads the random byte: any other instruction does the same whatever byte is presented (60_exceptions.md R244;
RND as an input is the spec's decision D20). -/
def Obligations.OnlyRndReadsTheRandomByte : Prop :=
  ∀ (i : Instr) (s t : State) (b : Byte), (∀ x kk, i ≠ .rnd x kk) → exec i s = .next t →
    exec i { s with inp := { s.inp with rnd := b } } = .next { t with inp := { t.inp with rnd := b } }

/-- A key is observable only by Ex9E, ExA1 and Fx0A: any other instruction does the same whatever the slot holds, and leaves it
(60_exceptions.md section 2). -/
def Obligations.OnlyKeyInstructionsSeeTheKey : Prop :=
  ∀ (i : Instr) (s t : State) (k : Option Nibble),
    (∀ x, i ≠ .skp x) → (∀ x, i ≠ .sknp x) → (∀ x, i ≠ .ldK x) → exec i s = .next t →
    exec i { s with inp := { s.inp with key := k } } = .next { t with inp := { t.inp with key := k } }

/-- How every instruction leaves PC: unchanged where it faults or waits for a key; otherwise a computed target for the four
control transfers, PC + 2 or PC + 4 for a skip, and PC + 2 for all the rest (10_state.md section 2, 40_step_cycle.md section 2;
where it faults and waits rests on the spec's decisions D9 and D11 to D13). -/
def Obligations.ProgramCounterMoves : Prop :=
  ∀ (i : Instr) (s t : State), exec i s = .next t →
    ((faultOf i s).isSome = true → t.mach.pc = s.mach.pc) ∧
    ((∃ x, i = .ldK x ∧ s.inp.key = none) → t.mach.pc = s.mach.pc) ∧
    (reachesTail i s = true → isSkip i = true → t.mach.pc = s.mach.pc + 2 ∨ t.mach.pc = s.mach.pc + 4) ∧
    (reachesTail i s = true → isSkip i = false → t.mach.pc = s.mach.pc + 2) ∧
    (∀ nnn, (i = .jp nnn ∨ (i = .call nnn ∧ s.mach.sp.toNat ≠ 15)) → t.mach.pc.toNat = nnn.toNat) ∧
    (∀ nnn, i = .jpV0 nnn → t.mach.pc.toNat = nnn.toNat + (s.mach.getV 0).toNat) ∧
    (i = .ret → s.mach.sp.toNat ≠ 0 → t.mach.pc = s.mach.getStack s.mach.sp)

/-- Faults exactly where the table of R230 names them: there the state is the old one but for FAULT, which holds the cause, the PC
and the instruction's word, and the outputs, all false; elsewhere the instruction completes and leaves FAULT
(60_exceptions.md section 1; the spec's decisions D11, D12, D13, D15). -/
def Obligations.FaultsExactlyWhereNamed : Prop :=
  ∀ (i : Instr) (s : State),
    (∀ c, faultOf i s = some c →
      exec i s = .next { s with
        mach := { s.mach with fault := ⟨c, s.mach.pc, encode i⟩ }, out := ⟨false, false, false⟩ }) ∧
    (faultOf i s = none → ∃ t, exec i s = .next t ∧ t.mach.fault = s.mach.fault)

/-- A step that takes a fault records the very word it fetched and the PC it fetched it from (R231, the spec's decision D15). -/
def Obligations.FaultRecordsTheFetchedWord : Prop :=
  ∀ (s t : State) (w : Word), Running s → s.mach.fetch = some w → step s = .next t → t.mach.fault.cause ≠ .noFault →
    t.mach = { s.mach with fault := ⟨t.mach.fault.cause, s.mach.pc, w⟩ } ∧
    faultOf (decode w) s = some t.mach.fault.cause

/-- The 3-bit codes of the causes (R230; the codes are the spec's own, D15). -/
def Obligations.FaultCodes : Prop :=
  FaultCause.noFault.code = 0 ∧ FaultCause.stackOverflow.code = 1 ∧ FaultCause.stackUnderflow.code = 2 ∧
  FaultCause.memBoundsRead.code = 3 ∧ FaultCause.memBoundsWrite.code = 4

/-! ### The invariant and memory -/

/-- Every step keeps the invariant: memory canonical, PC at most 0x10FE (R24), return addresses inside memory and slot 0 unused
(R27), FAULT naming a word that is still at PC and still faults (R231). R24 and R27 are marked by the spec as derived, R231 rests on
D15; the canonical form of memory is the model's. -/
def Obligations.EveryStepKeepsTheInvariant : Prop :=
  ∀ s t : State, MachineInv s → step s = .next t → MachineInv t

/-- The invariant holds after reset (R38; its zeros are the spec's decision D3). -/
def Obligations.ResetMeetsTheInvariant : Prop := MachineInv State.reset

/-- Memories in canonical form that read alike are the same data (the model's form of R50, log entry 5). -/
def Obligations.CanonicalMemoriesAreEqualData : Prop :=
  ∀ m m' : Memory, Memory.wf m → Memory.wf m' → (∀ a, Memory.read m a = Memory.read m' a) → m = m'

/-! ### Register loads and ALU -/

/-- 6xkk loads the immediate; 7xkk adds it modulo 256 and sets no flag (R140, R141). Both for every x, VF included. -/
def Obligations.ImmediateLoadAndAdd : Prop :=
  ∀ (x : Nibble) (kk : Byte) (s : State),
    (∃ t, exec (.ldImm x kk) s = .next t ∧ t.mach.getV x = kk ∧ OnlyRegisters [x] s t ∧ AdvancesQuietly s t) ∧
    (∃ t, exec (.addImm x kk) s = .next t ∧ (t.mach.getV x).toNat = ((s.mach.getV x).toNat + kk.toNat) % 256 ∧
      OnlyRegisters [x] s t ∧ AdvancesQuietly s t)

/-- 8xy0 to 8xy3: assign, OR, AND, XOR of the old values, bit by bit, and no flag (42_alu.md section 2; that VF is not written is
the spec's decision D25). -/
def Obligations.AssignAndLogic : Prop :=
  ∀ (x y : Nibble) (s : State),
    (∃ t, exec (.ldReg x y) s = .next t ∧ t.mach.getV x = s.mach.getV y ∧ OnlyRegisters [x] s t ∧ AdvancesQuietly s t) ∧
    (∃ t, exec (.orReg x y) s = .next t ∧
      (∀ k, (t.mach.getV x).getLsbD k = ((s.mach.getV x).getLsbD k || (s.mach.getV y).getLsbD k)) ∧
      OnlyRegisters [x] s t ∧ AdvancesQuietly s t) ∧
    (∃ t, exec (.andReg x y) s = .next t ∧
      (∀ k, (t.mach.getV x).getLsbD k = ((s.mach.getV x).getLsbD k && (s.mach.getV y).getLsbD k)) ∧
      OnlyRegisters [x] s t ∧ AdvancesQuietly s t) ∧
    (∃ t, exec (.xorReg x y) s = .next t ∧
      (∀ k, (t.mach.getV x).getLsbD k = ((s.mach.getV x).getLsbD k != (s.mach.getV y).getLsbD k)) ∧
      OnlyRegisters [x] s t ∧ AdvancesQuietly s t)

/-- 8xy4: the sum of the old values modulo 256, and VF = 1 iff it exceeds 255; with x = 0xF the flag stays (R147). -/
def Obligations.AddSetsCarry : Prop :=
  ∀ (x y : Nibble) (s : State), ∃ t, exec (.addReg x y) s = .next t ∧
    (x ≠ 0xF → (t.mach.getV x).toNat = ((s.mach.getV x).toNat + (s.mach.getV y).toNat) % 256) ∧
    (t.mach.getV 0xF).toNat = (if (s.mach.getV x).toNat + (s.mach.getV y).toNat > 255 then 1 else 0) ∧
    OnlyRegisters [x, 0xF] s t ∧ AdvancesQuietly s t

/-- 8xy5: Vx − Vy of the old values modulo 256, and VF = 0 iff Vx < Vy; with x = 0xF the flag stays (R148). -/
def Obligations.SubtractSetsNotBorrow : Prop :=
  ∀ (x y : Nibble) (s : State), ∃ t, exec (.sub x y) s = .next t ∧
    (x ≠ 0xF → (t.mach.getV x).toNat = ((s.mach.getV x).toNat + 256 - (s.mach.getV y).toNat) % 256) ∧
    (t.mach.getV 0xF).toNat = (if (s.mach.getV x).toNat < (s.mach.getV y).toNat then 0 else 1) ∧
    OnlyRegisters [x, 0xF] s t ∧ AdvancesQuietly s t

/-- 8xy7: Vy − Vx of the old values modulo 256, and VF = 0 iff Vy < Vx (42_alu.md section 2; that equality gives VF = 1 is marked
there as derived). -/
def Obligations.ReverseSubtractSetsNotBorrow : Prop :=
  ∀ (x y : Nibble) (s : State), ∃ t, exec (.subn x y) s = .next t ∧
    (x ≠ 0xF → (t.mach.getV x).toNat = ((s.mach.getV y).toNat + 256 - (s.mach.getV x).toNat) % 256) ∧
    (t.mach.getV 0xF).toNat = (if (s.mach.getV y).toNat < (s.mach.getV x).toNat then 0 else 1) ∧
    OnlyRegisters [x, 0xF] s t ∧ AdvancesQuietly s t

/-- 8xy6 and 8xyE shift the old Vy, not Vx, by one bit into Vx, and VF receives the bit shifted out; with x = 0xF the flag stays
(R149, R151). -/
def Obligations.ShiftsTakeVy : Prop :=
  ∀ (x y : Nibble) (s : State),
    (∃ t, exec (.shr x y) s = .next t ∧ (x ≠ 0xF → (t.mach.getV x).toNat = (s.mach.getV y).toNat / 2) ∧
      (t.mach.getV 0xF).toNat = (s.mach.getV y).toNat % 2 ∧ OnlyRegisters [x, 0xF] s t ∧ AdvancesQuietly s t) ∧
    (∃ t, exec (.shl x y) s = .next t ∧ (x ≠ 0xF → (t.mach.getV x).toNat = (s.mach.getV y).toNat * 2 % 256) ∧
      (t.mach.getV 0xF).toNat = (s.mach.getV y).toNat / 128 ∧ OnlyRegisters [x, 0xF] s t ∧ AdvancesQuietly s t)

/-- Cxkk: the immediate masked by the random byte presented, whichever byte that is (42_alu.md section 3; RND as a step input is
the spec's decision D20). -/
def Obligations.RandomByteMasked : Prop :=
  ∀ (x : Nibble) (kk : Byte) (s : State), ∃ t, exec (.rnd x kk) s = .next t ∧
    (∀ k, (t.mach.getV x).getLsbD k = (kk.getLsbD k && s.inp.rnd.getLsbD k)) ∧
    OnlyRegisters [x] s t ∧ AdvancesQuietly s t

/-! ### Control flow -/

/-- 3xkk skips the next word iff Vx = kk, 4xkk iff Vx ≠ kk; nothing else is written (R127, R128). -/
def Obligations.SkipOnImmediate : Prop :=
  ∀ (x : Nibble) (kk : Byte) (s : State),
    (∃ t, exec (.seImm x kk) s = .next t ∧ t.mach.pc = s.mach.pc + (if s.mach.getV x = kk then 4 else 2) ∧
      t.out.changed = false ∧ OnlyRegisters [] s t) ∧
    (∃ t, exec (.sneImm x kk) s = .next t ∧ t.mach.pc = s.mach.pc + (if s.mach.getV x = kk then 2 else 4) ∧
      t.out.changed = false ∧ OnlyRegisters [] s t)

/-- 5xyN skips the next word iff Vx = Vy, 9xyN iff Vx ≠ Vy, for every N; nothing else is written (41_control_flow.md section 2; that
N is ignored is the spec's decision D7). -/
def Obligations.SkipOnRegister : Prop :=
  ∀ (x y n : Nibble) (s : State),
    (∃ t, exec (.seReg x y n) s = .next t ∧
      t.mach.pc = s.mach.pc + (if s.mach.getV x = s.mach.getV y then 4 else 2) ∧ t.out.changed = false ∧
      OnlyRegisters [] s t) ∧
    (∃ t, exec (.sneReg x y n) s = .next t ∧
      t.mach.pc = s.mach.pc + (if s.mach.getV x = s.mach.getV y then 2 else 4) ∧ t.out.changed = false ∧
      OnlyRegisters [] s t)

/-- 1nnn sets PC to nnn; the step returns early, so the timers are unchanged even when a tick is due (R121). -/
def Obligations.JumpSetsPc : Prop :=
  ∀ (nnn : Imm12) (s : State), ∃ t, exec (.jp nnn) s = .next t ∧ t.mach.pc.toNat = nnn.toNat ∧
    OnlyPcAndStack s t ∧ SameStack s t

/-- Bnnn sets PC to nnn + V0, not reduced to 12 bits; the step returns early (R126). -/
def Obligations.ComputedJumpSetsPc : Prop :=
  ∀ (nnn : Imm12) (s : State), ∃ t, exec (.jpV0 nnn) s = .next t ∧
    t.mach.pc.toNat = nnn.toNat + (s.mach.getV 0).toNat ∧ OnlyPcAndStack s t ∧ SameStack s t

/-- 2nnn with SP ≠ 15 pushes PC + 2 in the slot above SP and jumps to nnn; the other slots are unchanged (41_control_flow.md
section 1; that SP = 15 is the limit is the spec's decision D11). -/
def Obligations.CallPushesTheReturnAddress : Prop :=
  ∀ (nnn : Imm12) (s : State), s.mach.sp ≠ 15 → ∃ t, exec (.call nnn) s = .next t ∧
    t.mach.pc.toNat = nnn.toNat ∧ t.mach.sp.toNat = s.mach.sp.toNat + 1 ∧
    t.mach.getStack t.mach.sp = s.mach.pc + 2 ∧
    (∀ j, j ≠ t.mach.sp → t.mach.getStack j = s.mach.getStack j) ∧ OnlyPcAndStack s t

/-- 00EE with SP ≠ 0 sets PC to the slot at SP and decrements SP; every slot is unchanged (41_control_flow.md section 1; that
SP = 0 faults is the spec's decision D12). -/
def Obligations.ReturnPopsTheReturnAddress : Prop :=
  ∀ s : State, s.mach.sp ≠ 0 → ∃ t, exec .ret s = .next t ∧
    t.mach.pc = s.mach.getStack s.mach.sp ∧ t.mach.sp.toNat + 1 = s.mach.sp.toNat ∧
    (∀ j, t.mach.getStack j = s.mach.getStack j) ∧ OnlyPcAndStack s t

/-- A return after a call, from any state that has kept SP and the slots 1 to SP, resumes after the call with SP restored (R125,
which the spec marks as derived). -/
def Obligations.ReturnUndoesCall : Prop :=
  ∀ (nnn : Imm12) (s t u : State), s.mach.sp ≠ 15 → exec (.call nnn) s = .next t →
    u.mach.sp = t.mach.sp → (∀ j, 1 ≤ j.toNat → j.toNat ≤ t.mach.sp.toNat → u.mach.getStack j = t.mach.getStack j) →
    ∃ r, exec .ret u = .next r ∧ r.mach.pc = s.mach.pc + 2 ∧ r.mach.sp = s.mach.sp

/-! ### Display -/

/-- 00E0 turns every pixel off and reports a change; nothing else is written (R170). -/
def Obligations.ClearTurnsEveryPixelOff : Prop :=
  ∀ s : State, ∃ t, exec .cls s = .next t ∧ (∀ x y, Screen.pixel t.mach.screen x y = false) ∧
    t.mach.pc = s.mach.pc + 2 ∧ t.out.changed = true ∧ OnlyScreenAnd [] s t

/-- Dxyn flips exactly the pixels inside the grid under a set bit of the sprite and sets VF to whether one of them was on, all from
the values before the instruction; it always reports a change (43_display.md section 1; dropped rows, bit order and coordinates are
the spec's decisions D14, D17, D18). -/
def Obligations.DrawXorsTheSprite : Prop :=
  ∀ (x y n : Nibble) (s : State), ∃ t, exec (.drw x y n) s = .next t ∧
    (∀ px py, px < 64 → py < 32 →
      (SpriteBit s x y n px py → Screen.pixel t.mach.screen px py = !Screen.pixel s.mach.screen px py) ∧
      (¬ SpriteBit s x y n px py → Screen.pixel t.mach.screen px py = Screen.pixel s.mach.screen px py)) ∧
    ((∃ px py, px < 64 ∧ py < 32 ∧ SpriteBit s x y n px py ∧ Screen.pixel s.mach.screen px py = true) →
      t.mach.getV 0xF = 1) ∧
    ((¬ ∃ px py, px < 64 ∧ py < 32 ∧ SpriteBit s x y n px py ∧ Screen.pixel s.mach.screen px py = true) →
      t.mach.getV 0xF = 0) ∧
    t.mach.pc = s.mach.pc + 2 ∧ t.out.changed = true ∧ OnlyScreenAnd [0xF] s t

/-- The render buffer has 8192 bytes; pixel (x, y) is at 4·(64·y + x), white if it is on and dark green if it is off, in the order
R, G, B, A (43_display.md section 2; the offsets rest on the spec's decision D18). -/
def Obligations.RenderShowsEveryPixel : Prop :=
  ∀ s : State, s.render.length = 8192 ∧
    ∀ x y, x < 64 → y < 32 →
      (s.render.drop (4 * (64 * y + x))).take 4 =
        if Screen.pixel s.mach.screen x y then [0xFF, 0xFF, 0xFF, 0xFF] else [0x00, 0xF0, 0x00, 0xFF]

/-! ### Keys -/

/-- Ex9E: a held key equal to Vx skips and is consumed; otherwise no skip and the slot is unchanged (R190). -/
def Obligations.SkipIfKeyHeld : Prop :=
  ∀ (x : Nibble) (s : State), ∃ t, exec (.skp x) s = .next t ∧
    ((∃ k, s.inp.key = some k ∧ k.toNat = (s.mach.getV x).toNat) →
      t.mach.pc = s.mach.pc + 4 ∧ t.out.keyClear = true ∧ t.inp.key = none) ∧
    ((¬ ∃ k, s.inp.key = some k ∧ k.toNat = (s.mach.getV x).toNat) →
      t.mach.pc = s.mach.pc + 2 ∧ t.out.keyClear = false ∧ t.inp.key = s.inp.key) ∧
    t.out.changed = false ∧ OnlyKeyAnd [] s t

/-- ExA1: skips unless the held key equals Vx; the slot holds afterwards what it held before, and KEY_CLEAR is reported only where
no key is held (44_keys.md; the spec's decision D10). -/
def Obligations.SkipIfKeyNotHeld : Prop :=
  ∀ (x : Nibble) (s : State), ∃ t, exec (.sknp x) s = .next t ∧
    ((∃ k, s.inp.key = some k ∧ k.toNat = (s.mach.getV x).toNat) → t.mach.pc = s.mach.pc + 2) ∧
    ((¬ ∃ k, s.inp.key = some k ∧ k.toNat = (s.mach.getV x).toNat) → t.mach.pc = s.mach.pc + 4) ∧
    (t.out.keyClear = true ↔ s.inp.key = none) ∧ t.inp.key = s.inp.key ∧
    t.out.changed = false ∧ OnlyKeyAnd [] s t

/-- Fx0A: with no key held nothing changes but the outputs, all false, and PC stays; with a key held it goes to Vx and is
consumed (44_keys.md; that a waiting step has no tick is the spec's decision D9). -/
def Obligations.KeyWaitAndTake : Prop :=
  ∀ (x : Nibble) (s : State),
    (s.inp.key = none → exec (.ldK x) s = .next { s with out := ⟨false, false, false⟩ }) ∧
    (∀ k, s.inp.key = some k → ∃ t, exec (.ldK x) s = .next t ∧ (t.mach.getV x).toNat = k.toNat ∧
      t.inp.key = none ∧ t.out.keyClear = true ∧ AdvancesQuietly s t ∧ OnlyKeyAnd [x] s t)

/-! ### Timers -/

/-- Fx07 reads DT as it was before the tick of the same step; Fx15 and Fx18 set DT and ST, which the tick of the same step then
decrements if it is due, floored at 0 (R200, R201, R202). -/
def Obligations.TimerReadAndSet : Prop :=
  ∀ (x : Nibble) (s : State),
    (∃ t, exec (.ldVxDt x) s = .next t ∧ t.mach.getV x = s.mach.dt ∧
      t.mach.dt.toNat = s.mach.dt.toNat - (if s.inp.tick then 1 else 0) ∧ OnlyRegisters [x] s t ∧ AdvancesQuietly s t) ∧
    (∃ t, exec (.ldDtVx x) s = .next t ∧
      t.mach.dt.toNat = (s.mach.getV x).toNat - (if s.inp.tick then 1 else 0) ∧
      t.mach.st.toNat = s.mach.st.toNat - (if s.inp.tick then 1 else 0) ∧ OnlyTimers s t ∧ AdvancesQuietly s t) ∧
    (∃ t, exec (.ldStVx x) s = .next t ∧
      t.mach.st.toNat = (s.mach.getV x).toNat - (if s.inp.tick then 1 else 0) ∧
      t.mach.dt.toNat = s.mach.dt.toNat - (if s.inp.tick then 1 else 0) ∧ OnlyTimers s t ∧ AdvancesQuietly s t)

/-! ### Index register and memory -/

/-- Fx1E adds Vx to I modulo 65536 with no flag; Fx29 sets I to 5·Vx with Vx not masked (R211, R212). -/
def Obligations.IndexAddAndGlyph : Prop :=
  ∀ (x : Nibble) (s : State),
    (∃ t, exec (.addI x) s = .next t ∧
      t.mach.i.toNat = (s.mach.i.toNat + (s.mach.getV x).toNat) % 65536 ∧ OnlyIndex s t ∧ AdvancesQuietly s t) ∧
    (∃ t, exec (.ldF x) s = .next t ∧ t.mach.i.toNat = 5 * (s.mach.getV x).toNat ∧ OnlyIndex s t ∧ AdvancesQuietly s t)

/-- Annn sets I to nnn (46_index_memory.md section 1; the meaning of group A is the spec's decision D5). -/
def Obligations.IndexLoad : Prop :=
  ∀ (nnn : Imm12) (s : State), ∃ t, exec (.ldI nnn) s = .next t ∧ t.mach.i.toNat = nnn.toNat ∧
    OnlyIndex s t ∧ AdvancesQuietly s t

/-- Fx33 with I + 2 inside memory stores the decimal digits of Vx at I, I + 1, I + 2, hundreds first, and no other byte
(46_index_memory.md section 2; the bound is the spec's decision D13). -/
def Obligations.DecimalDigitsStored : Prop :=
  ∀ (x : Nibble) (s : State), s.mach.i.toNat + 2 < 4095 →
    ∃ (t : State) (h d u : Byte), exec (.ldB x) s = .next t ∧
      Memory.read t.mach.mem s.mach.i.toNat = some h ∧ Memory.read t.mach.mem (s.mach.i.toNat + 1) = some d ∧
      Memory.read t.mach.mem (s.mach.i.toNat + 2) = some u ∧
      h.toNat < 10 ∧ d.toNat < 10 ∧ u.toNat < 10 ∧ 100 * h.toNat + 10 * d.toNat + u.toNat = (s.mach.getV x).toNat ∧
      OnlyBytes s.mach.i.toNat 3 s t ∧ AdvancesQuietly s t

/-- Fx55 with I + x inside memory stores V0 to Vx at I to I + x, and no other byte; I is unchanged (46_index_memory.md section 2;
the bound is the spec's decision D13). -/
def Obligations.RegistersStored : Prop :=
  ∀ (x : Nibble) (s : State), s.mach.i.toNat + x.toNat < 4095 →
    ∃ t, exec (.ldMemStore x) s = .next t ∧
      (∀ k : Nibble, k.toNat ≤ x.toNat →
        Memory.read t.mach.mem (s.mach.i.toNat + k.toNat) = some (s.mach.getV k)) ∧
      OnlyBytes s.mach.i.toNat (x.toNat + 1) s t ∧ AdvancesQuietly s t

/-- Fx65 with I + x inside memory loads V0 to Vx from I to I + x; the registers above x and I are unchanged (46_index_memory.md
section 2; the bound is the spec's decision D13). -/
def Obligations.RegistersLoaded : Prop :=
  ∀ (x : Nibble) (s : State), s.mach.i.toNat + x.toNat < 4095 →
    ∃ t, exec (.ldMemLoad x) s = .next t ∧
      (∀ k : Nibble, k.toNat ≤ x.toNat →
        some (t.mach.getV k) = Memory.read s.mach.mem (s.mach.i.toNat + k.toNat)) ∧
      (∀ k : Nibble, x.toNat < k.toNat → t.mach.getV k = s.mach.getV k) ∧
      OnlyRegisters (destinations (.ldMemLoad x)) s t ∧ AdvancesQuietly s t

/-- Fx65 restores what Fx55 stored, from any state that has kept I and the stored bytes (R216, which the spec marks as derived). -/
def Obligations.StoreLoadRoundTrip : Prop :=
  ∀ (x : Nibble) (s t u : State), s.mach.i.toNat + x.toNat < 4095 → exec (.ldMemStore x) s = .next t →
    u.mach.i = s.mach.i →
    (∀ a, s.mach.i.toNat ≤ a → a ≤ s.mach.i.toNat + x.toNat → Memory.read u.mach.mem a = Memory.read t.mach.mem a) →
    ∃ r, exec (.ldMemLoad x) u = .next r ∧ ∀ k : Nibble, k.toNat ≤ x.toNat → r.mach.getV k = s.mach.getV k

/-! ### Undefined codes -/

/-- The undefined codes of groups 0, 8, E and F, whatever their operand bits, have no effect but that PC advances by 2 (R109; what a
due tick does to the timers in them is said by TimersTickOnceInTheTail). -/
def Obligations.UndefinedCodesDoNothing : Prop :=
  ∀ (nnn : Imm12) (x y n : Nibble) (kk : Byte) (s : State),
    (∃ t, exec (.nop0 nnn) s = .next t ∧ OnlyRegisters [] s t ∧ AdvancesQuietly s t) ∧
    (∃ t, exec (.nop8 x y n) s = .next t ∧ OnlyRegisters [] s t ∧ AdvancesQuietly s t) ∧
    (∃ t, exec (.nopE x kk) s = .next t ∧ OnlyRegisters [] s t ∧ AdvancesQuietly s t) ∧
    (∃ t, exec (.nopF x kk) s = .next t ∧ OnlyRegisters [] s t ∧ AdvancesQuietly s t)

/-! ### Reset and load -/

/-- The state after reset: PC = 0x200; memory is the font and zeros; every register, the stack, the screen, the timers and FAULT
are zero (10_state.md section 8: all but PC and the font are the spec's decision D3; that no inputs have been presented yet,
KEY none, TICK false, RND 0, and the outputs false are this model's choice, log entries 2 and 3). -/
def Obligations.ResetLeaves : Prop :=
  State.reset.mach.pc = 0x200 ∧ State.reset.mach.i = 0 ∧ State.reset.mach.sp = 0 ∧ State.reset.mach.dt = 0 ∧
  State.reset.mach.st = 0 ∧ (∀ r, State.reset.mach.getV r = 0) ∧ (∀ j, State.reset.mach.getStack j = 0) ∧
  (∀ x y, Screen.pixel State.reset.mach.screen x y = false) ∧
  State.reset.mach.fault = ⟨.noFault, 0, 0⟩ ∧
  (∀ a, a < 4095 → Memory.read State.reset.mach.mem a = some (Config.font.getD a 0)) ∧
  (∀ a, 80 ≤ a → a < 4095 → Memory.read State.reset.mach.mem a = some 0) ∧
  State.reset.inp = ⟨none, false, 0⟩ ∧ State.reset.out = ⟨false, false, false⟩

/-- The load of a ROM: its first 3583 bytes from 0x200 on, every other byte and every other piece of state as after reset
(70_reset_and_hazards.md section 1; the truncation is the spec's decision D16, the zeros D3). -/
def Obligations.LoadPlacesTheRom : Prop :=
  ∀ rom : List Byte,
    (∀ j, j < rom.length → j < 3583 → Memory.read (State.load rom).mach.mem (0x200 + j) = rom[j]?) ∧
    (∀ a, (a < 0x200 ∨ 0x200 + rom.length ≤ a) →
      Memory.read (State.load rom).mach.mem a = Memory.read State.reset.mach.mem a) ∧
    { State.load rom with mach := { (State.load rom).mach with mem := [] } } = State.reset

/-- Where the ROM source cannot be read there is no machine to step; where it can, there is one (R261). -/
def Obligations.LoadFailsWithoutARom : Prop :=
  State.loadFrom none = none ∧ ∀ rom, State.loadFrom (some rom) = some (State.load rom)
end

