-- ==== Sys2Proof/Laws/Decode.lean ====
section
/-! SUPPORT. The fields of a word built from fields, and a word built from its own fields (R71): what the round trips rest on. -/

namespace Sys2Proof

/-- A concatenation as a number: the high part scaled, plus the low part. -/
theorem toNat_append_add {n m : Nat} (a : BitVec n) (b : BitVec m) : (a ++ b).toNat = a.toNat * 2 ^ m + b.toNat := by
  rw [BitVec.toNat_append, ← Nat.shiftLeft_add_eq_or_of_lt b.isLt, Nat.shiftLeft_eq]

theorem formatA_toNat (op : Nibble) (a : Imm12) : (formatA op a).toNat = op.toNat * 4096 + a.toNat :=
  toNat_append_add op a

theorem formatXK_toNat (op x : Nibble) (kk : Byte) :
    (formatXK op x kk).toNat = op.toNat * 4096 + x.toNat * 256 + kk.toNat := by
  unfold formatXK
  rw [toNat_append_add, toNat_append_add]; omega

theorem formatXY_toNat (op x y n : Nibble) :
    (formatXY op x y n).toNat = op.toNat * 4096 + x.toNat * 256 + y.toNat * 16 + n.toNat := by
  unfold formatXY
  rw [toNat_append_add, toNat_append_add, toNat_append_add]; omega

theorem fieldOp_toNat (w : Word) : (fieldOp w).toNat = w.toNat / 4096 := by
  have := w.isLt
  simp [fieldOp, BitVec.extractLsb'_toNat, Nat.shiftRight_eq_div_pow]; omega

theorem fieldX_toNat (w : Word) : (fieldX w).toNat = w.toNat / 256 % 16 := by
  simp [fieldX, BitVec.extractLsb'_toNat, Nat.shiftRight_eq_div_pow]

theorem fieldY_toNat (w : Word) : (fieldY w).toNat = w.toNat / 16 % 16 := by
  simp [fieldY, BitVec.extractLsb'_toNat, Nat.shiftRight_eq_div_pow]

theorem fieldN_toNat (w : Word) : (fieldN w).toNat = w.toNat % 16 := by
  simp [fieldN, BitVec.extractLsb'_toNat]

theorem fieldKK_toNat (w : Word) : (fieldKK w).toNat = w.toNat % 256 := by
  simp [fieldKK, BitVec.extractLsb'_toNat]

theorem fieldNNN_toNat (w : Word) : (fieldNNN w).toNat = w.toNat % 4096 := by
  simp [fieldNNN, BitVec.extractLsb'_toNat]

/-! ### The fields of a built word -/

@[simp] theorem fieldOp_formatA (op : Nibble) (a : Imm12) : fieldOp (formatA op a) = op := by
  have := op.isLt; have := a.isLt
  apply BitVec.eq_of_toNat_eq; rw [fieldOp_toNat, formatA_toNat]; omega

@[simp] theorem fieldNNN_formatA (op : Nibble) (a : Imm12) : fieldNNN (formatA op a) = a := by
  have := op.isLt; have := a.isLt
  apply BitVec.eq_of_toNat_eq; rw [fieldNNN_toNat, formatA_toNat]; omega

@[simp] theorem fieldOp_formatXK (op x : Nibble) (kk : Byte) : fieldOp (formatXK op x kk) = op := by
  have := op.isLt; have := x.isLt; have := kk.isLt
  apply BitVec.eq_of_toNat_eq; rw [fieldOp_toNat, formatXK_toNat]; omega

@[simp] theorem fieldX_formatXK (op x : Nibble) (kk : Byte) : fieldX (formatXK op x kk) = x := by
  have := op.isLt; have := x.isLt; have := kk.isLt
  apply BitVec.eq_of_toNat_eq; rw [fieldX_toNat, formatXK_toNat]; omega

@[simp] theorem fieldKK_formatXK (op x : Nibble) (kk : Byte) : fieldKK (formatXK op x kk) = kk := by
  have := op.isLt; have := x.isLt; have := kk.isLt
  apply BitVec.eq_of_toNat_eq; rw [fieldKK_toNat, formatXK_toNat]; omega

@[simp] theorem fieldOp_formatXY (op x y n : Nibble) : fieldOp (formatXY op x y n) = op := by
  have := op.isLt; have := x.isLt; have := y.isLt; have := n.isLt
  apply BitVec.eq_of_toNat_eq; rw [fieldOp_toNat, formatXY_toNat]; omega

@[simp] theorem fieldX_formatXY (op x y n : Nibble) : fieldX (formatXY op x y n) = x := by
  have := op.isLt; have := x.isLt; have := y.isLt; have := n.isLt
  apply BitVec.eq_of_toNat_eq; rw [fieldX_toNat, formatXY_toNat]; omega

@[simp] theorem fieldY_formatXY (op x y n : Nibble) : fieldY (formatXY op x y n) = y := by
  have := op.isLt; have := x.isLt; have := y.isLt; have := n.isLt
  apply BitVec.eq_of_toNat_eq; rw [fieldY_toNat, formatXY_toNat]; omega

@[simp] theorem fieldN_formatXY (op x y n : Nibble) : fieldN (formatXY op x y n) = n := by
  have := op.isLt; have := x.isLt; have := y.isLt; have := n.isLt
  apply BitVec.eq_of_toNat_eq; rw [fieldN_toNat, formatXY_toNat]; omega

/-! ### A word from its own fields -/

theorem formatA_fields (w : Word) : formatA (fieldOp w) (fieldNNN w) = w := by
  apply BitVec.eq_of_toNat_eq; rw [formatA_toNat, fieldOp_toNat, fieldNNN_toNat]; omega

theorem formatXK_fields (w : Word) : formatXK (fieldOp w) (fieldX w) (fieldKK w) = w := by
  apply BitVec.eq_of_toNat_eq; rw [formatXK_toNat, fieldOp_toNat, fieldX_toNat, fieldKK_toNat]; omega

theorem formatXY_fields (w : Word) : formatXY (fieldOp w) (fieldX w) (fieldY w) (fieldN w) = w := by
  apply BitVec.eq_of_toNat_eq; rw [formatXY_toNat, fieldOp_toNat, fieldX_toNat, fieldY_toNat, fieldN_toNat]; omega

/-- Two bytes joined big-endian, as a number (R55). -/
theorem joinBytes_toNat (hi lo : Byte) : (joinBytes hi lo).toNat = hi.toNat * 256 + lo.toNat :=
  toNat_append_add hi lo

/-- A word split into bytes and joined again is the word (R55). -/
theorem joinBytes_splitWord (w : Word) : joinBytes (splitWord w).1 (splitWord w).2 = w := by
  apply BitVec.eq_of_toNat_eq
  rw [joinBytes_toNat]
  have := w.isLt
  simp [splitWord, BitVec.extractLsb'_toNat, Nat.shiftRight_eq_div_pow]; omega

/-! ### Masks (R79) -/

/-- Masking a word masks its four nibbles one by one. -/
theorem formatXY_and (a b c d a' b' c' d' : Nibble) :
    formatXY a b c d &&& formatXY a' b' c' d' = formatXY (a &&& a') (b &&& b') (c &&& c') (d &&& d') := by
  unfold formatXY
  rw [BitVec.and_append, BitVec.and_append, BitVec.and_append]

/-- Two words are the same exactly when their four nibbles are. -/
theorem formatXY_inj (a b c d a' b' c' d' : Nibble) :
    formatXY a b c d = formatXY a' b' c' d' ↔ a = a' ∧ b = b' ∧ c = c' ∧ d = d' := by
  constructor
  · intro h
    exact ⟨by simpa using congrArg fieldOp h, by simpa using congrArg fieldX h, by simpa using congrArg fieldY h,
      by simpa using congrArg fieldN h⟩
  · rintro ⟨rfl, rfl, rfl, rfl⟩; rfl

/-- The byte and the address of a word, in its nibbles. -/
theorem fieldKK_eq (w : Word) : fieldKK w = fieldY w ++ fieldN w := by
  apply BitVec.eq_of_toNat_eq
  rw [toNat_append_add, fieldKK_toNat, fieldY_toNat, fieldN_toNat]; omega

theorem fieldNNN_eq (w : Word) : fieldNNN w = (fieldX w ++ fieldY w : BitVec 8) ++ fieldN w := by
  apply BitVec.eq_of_toNat_eq
  rw [toNat_append_add, toNat_append_add, fieldNNN_toNat, fieldX_toNat, fieldY_toNat, fieldN_toNat]; omega

/-! ### The primary dispatch (R73) -/

/-- Every nibble is one of the sixteen. -/
theorem nibble_cases (o : Nibble) :
    o = 0x0 ∨ o = 0x1 ∨ o = 0x2 ∨ o = 0x3 ∨ o = 0x4 ∨ o = 0x5 ∨ o = 0x6 ∨ o = 0x7 ∨
    o = 0x8 ∨ o = 0x9 ∨ o = 0xA ∨ o = 0xB ∨ o = 0xC ∨ o = 0xD ∨ o = 0xE ∨ o = 0xF := by
  bv_omega

theorem decode_op0 {w : Word} (h : fieldOp w = 0x0) : decode w = decodeGroup0 w := by simp [decode, h]
theorem decode_op1 {w : Word} (h : fieldOp w = 0x1) : decode w = .jp (fieldNNN w) := by simp [decode, h]
theorem decode_op2 {w : Word} (h : fieldOp w = 0x2) : decode w = .call (fieldNNN w) := by simp [decode, h]
theorem decode_op3 {w : Word} (h : fieldOp w = 0x3) : decode w = .seImm (fieldX w) (fieldKK w) := by simp [decode, h]
theorem decode_op4 {w : Word} (h : fieldOp w = 0x4) : decode w = .sneImm (fieldX w) (fieldKK w) := by simp [decode, h]
theorem decode_op5 {w : Word} (h : fieldOp w = 0x5) : decode w = .seReg (fieldX w) (fieldY w) (fieldN w) := by simp [decode, h]
theorem decode_op6 {w : Word} (h : fieldOp w = 0x6) : decode w = .ldImm (fieldX w) (fieldKK w) := by simp [decode, h]
theorem decode_op7 {w : Word} (h : fieldOp w = 0x7) : decode w = .addImm (fieldX w) (fieldKK w) := by simp [decode, h]
theorem decode_op8 {w : Word} (h : fieldOp w = 0x8) : decode w = decodeGroup8 w := by simp [decode, h]
theorem decode_op9 {w : Word} (h : fieldOp w = 0x9) : decode w = .sneReg (fieldX w) (fieldY w) (fieldN w) := by simp [decode, h]
theorem decode_opA {w : Word} (h : fieldOp w = 0xA) : decode w = .ldI (fieldNNN w) := by simp [decode, h]
theorem decode_opB {w : Word} (h : fieldOp w = 0xB) : decode w = .jpV0 (fieldNNN w) := by simp [decode, h]
theorem decode_opC {w : Word} (h : fieldOp w = 0xC) : decode w = .rnd (fieldX w) (fieldKK w) := by simp [decode, h]
theorem decode_opD {w : Word} (h : fieldOp w = 0xD) : decode w = .drw (fieldX w) (fieldY w) (fieldN w) := by simp [decode, h]
theorem decode_opE {w : Word} (h : fieldOp w = 0xE) : decode w = decodeGroupE w := by simp [decode, h]
theorem decode_opF {w : Word} (h : fieldOp w = 0xF) : decode w = decodeGroupF w := by simp [decode, h]

end Sys2Proof
end

