-- ==== Sys2Proof/Laws/State.lean ====
section
/-! SUPPORT. One lemma per field per update of the Machine and of the state, each true by rfl, so that no later proof unfolds a
record update; and what reading a register gives after writing one. -/

namespace Sys2Proof.Machine

/-! `Mach.setV` -/

@[simp] theorem Mach.setV_i (m : Mach) (r : Nibble) (b : Byte) : (m.setV r b).i = m.i := rfl
@[simp] theorem Mach.setV_pc (m : Mach) (r : Nibble) (b : Byte) : (m.setV r b).pc = m.pc := rfl
@[simp] theorem Mach.setV_sp (m : Mach) (r : Nibble) (b : Byte) : (m.setV r b).sp = m.sp := rfl
@[simp] theorem Mach.setV_stack (m : Mach) (r : Nibble) (b : Byte) : (m.setV r b).stack = m.stack := rfl
@[simp] theorem Mach.setV_screen (m : Mach) (r : Nibble) (b : Byte) : (m.setV r b).screen = m.screen := rfl
@[simp] theorem Mach.setV_dt (m : Mach) (r : Nibble) (b : Byte) : (m.setV r b).dt = m.dt := rfl
@[simp] theorem Mach.setV_st (m : Mach) (r : Nibble) (b : Byte) : (m.setV r b).st = m.st := rfl
@[simp] theorem Mach.setV_mem (m : Mach) (r : Nibble) (b : Byte) : (m.setV r b).mem = m.mem := rfl
@[simp] theorem Mach.setV_fault (m : Mach) (r : Nibble) (b : Byte) : (m.setV r b).fault = m.fault := rfl

/-! `Mach.setI` -/

@[simp] theorem Mach.setI_v (m : Mach) (a : Word) : (m.setI a).v = m.v := rfl
@[simp] theorem Mach.setI_i (m : Mach) (a : Word) : (m.setI a).i = a := rfl
@[simp] theorem Mach.setI_pc (m : Mach) (a : Word) : (m.setI a).pc = m.pc := rfl
@[simp] theorem Mach.setI_sp (m : Mach) (a : Word) : (m.setI a).sp = m.sp := rfl
@[simp] theorem Mach.setI_stack (m : Mach) (a : Word) : (m.setI a).stack = m.stack := rfl
@[simp] theorem Mach.setI_screen (m : Mach) (a : Word) : (m.setI a).screen = m.screen := rfl
@[simp] theorem Mach.setI_dt (m : Mach) (a : Word) : (m.setI a).dt = m.dt := rfl
@[simp] theorem Mach.setI_st (m : Mach) (a : Word) : (m.setI a).st = m.st := rfl
@[simp] theorem Mach.setI_mem (m : Mach) (a : Word) : (m.setI a).mem = m.mem := rfl
@[simp] theorem Mach.setI_fault (m : Mach) (a : Word) : (m.setI a).fault = m.fault := rfl

/-! `Mach.setPc` -/

@[simp] theorem Mach.setPc_v (m : Mach) (a : Word) : (m.setPc a).v = m.v := rfl
@[simp] theorem Mach.setPc_i (m : Mach) (a : Word) : (m.setPc a).i = m.i := rfl
@[simp] theorem Mach.setPc_pc (m : Mach) (a : Word) : (m.setPc a).pc = a := rfl
@[simp] theorem Mach.setPc_sp (m : Mach) (a : Word) : (m.setPc a).sp = m.sp := rfl
@[simp] theorem Mach.setPc_stack (m : Mach) (a : Word) : (m.setPc a).stack = m.stack := rfl
@[simp] theorem Mach.setPc_screen (m : Mach) (a : Word) : (m.setPc a).screen = m.screen := rfl
@[simp] theorem Mach.setPc_dt (m : Mach) (a : Word) : (m.setPc a).dt = m.dt := rfl
@[simp] theorem Mach.setPc_st (m : Mach) (a : Word) : (m.setPc a).st = m.st := rfl
@[simp] theorem Mach.setPc_mem (m : Mach) (a : Word) : (m.setPc a).mem = m.mem := rfl
@[simp] theorem Mach.setPc_fault (m : Mach) (a : Word) : (m.setPc a).fault = m.fault := rfl

/-! `Mach.setDt` -/

@[simp] theorem Mach.setDt_v (m : Mach) (b : Byte) : (m.setDt b).v = m.v := rfl
@[simp] theorem Mach.setDt_i (m : Mach) (b : Byte) : (m.setDt b).i = m.i := rfl
@[simp] theorem Mach.setDt_pc (m : Mach) (b : Byte) : (m.setDt b).pc = m.pc := rfl
@[simp] theorem Mach.setDt_sp (m : Mach) (b : Byte) : (m.setDt b).sp = m.sp := rfl
@[simp] theorem Mach.setDt_stack (m : Mach) (b : Byte) : (m.setDt b).stack = m.stack := rfl
@[simp] theorem Mach.setDt_screen (m : Mach) (b : Byte) : (m.setDt b).screen = m.screen := rfl
@[simp] theorem Mach.setDt_dt (m : Mach) (b : Byte) : (m.setDt b).dt = b := rfl
@[simp] theorem Mach.setDt_st (m : Mach) (b : Byte) : (m.setDt b).st = m.st := rfl
@[simp] theorem Mach.setDt_mem (m : Mach) (b : Byte) : (m.setDt b).mem = m.mem := rfl
@[simp] theorem Mach.setDt_fault (m : Mach) (b : Byte) : (m.setDt b).fault = m.fault := rfl

/-! `Mach.setSt` -/

@[simp] theorem Mach.setSt_v (m : Mach) (b : Byte) : (m.setSt b).v = m.v := rfl
@[simp] theorem Mach.setSt_i (m : Mach) (b : Byte) : (m.setSt b).i = m.i := rfl
@[simp] theorem Mach.setSt_pc (m : Mach) (b : Byte) : (m.setSt b).pc = m.pc := rfl
@[simp] theorem Mach.setSt_sp (m : Mach) (b : Byte) : (m.setSt b).sp = m.sp := rfl
@[simp] theorem Mach.setSt_stack (m : Mach) (b : Byte) : (m.setSt b).stack = m.stack := rfl
@[simp] theorem Mach.setSt_screen (m : Mach) (b : Byte) : (m.setSt b).screen = m.screen := rfl
@[simp] theorem Mach.setSt_dt (m : Mach) (b : Byte) : (m.setSt b).dt = m.dt := rfl
@[simp] theorem Mach.setSt_st (m : Mach) (b : Byte) : (m.setSt b).st = b := rfl
@[simp] theorem Mach.setSt_mem (m : Mach) (b : Byte) : (m.setSt b).mem = m.mem := rfl
@[simp] theorem Mach.setSt_fault (m : Mach) (b : Byte) : (m.setSt b).fault = m.fault := rfl

/-! `Mach.setScreen` -/

@[simp] theorem Mach.setScreen_v (m : Mach) (c : Screen) : (m.setScreen c).v = m.v := rfl
@[simp] theorem Mach.setScreen_i (m : Mach) (c : Screen) : (m.setScreen c).i = m.i := rfl
@[simp] theorem Mach.setScreen_pc (m : Mach) (c : Screen) : (m.setScreen c).pc = m.pc := rfl
@[simp] theorem Mach.setScreen_sp (m : Mach) (c : Screen) : (m.setScreen c).sp = m.sp := rfl
@[simp] theorem Mach.setScreen_stack (m : Mach) (c : Screen) : (m.setScreen c).stack = m.stack := rfl
@[simp] theorem Mach.setScreen_screen (m : Mach) (c : Screen) : (m.setScreen c).screen = c := rfl
@[simp] theorem Mach.setScreen_dt (m : Mach) (c : Screen) : (m.setScreen c).dt = m.dt := rfl
@[simp] theorem Mach.setScreen_st (m : Mach) (c : Screen) : (m.setScreen c).st = m.st := rfl
@[simp] theorem Mach.setScreen_mem (m : Mach) (c : Screen) : (m.setScreen c).mem = m.mem := rfl
@[simp] theorem Mach.setScreen_fault (m : Mach) (c : Screen) : (m.setScreen c).fault = m.fault := rfl

/-! `Mach.push` -/

@[simp] theorem Mach.push_v (m : Mach) (a : Word) : (m.push a).v = m.v := rfl
@[simp] theorem Mach.push_i (m : Mach) (a : Word) : (m.push a).i = m.i := rfl
@[simp] theorem Mach.push_pc (m : Mach) (a : Word) : (m.push a).pc = m.pc := rfl
@[simp] theorem Mach.push_sp (m : Mach) (a : Word) : (m.push a).sp = m.sp + 1 := rfl
@[simp] theorem Mach.push_screen (m : Mach) (a : Word) : (m.push a).screen = m.screen := rfl
@[simp] theorem Mach.push_dt (m : Mach) (a : Word) : (m.push a).dt = m.dt := rfl
@[simp] theorem Mach.push_st (m : Mach) (a : Word) : (m.push a).st = m.st := rfl
@[simp] theorem Mach.push_mem (m : Mach) (a : Word) : (m.push a).mem = m.mem := rfl
@[simp] theorem Mach.push_fault (m : Mach) (a : Word) : (m.push a).fault = m.fault := rfl

/-! `Mach.popPc` -/

@[simp] theorem Mach.popPc_v (m : Mach) : (m.popPc).v = m.v := rfl
@[simp] theorem Mach.popPc_i (m : Mach) : (m.popPc).i = m.i := rfl
@[simp] theorem Mach.popPc_pc (m : Mach) : (m.popPc).pc = m.getStack m.sp := rfl
@[simp] theorem Mach.popPc_sp (m : Mach) : (m.popPc).sp = m.sp - 1 := rfl
@[simp] theorem Mach.popPc_stack (m : Mach) : (m.popPc).stack = m.stack := rfl
@[simp] theorem Mach.popPc_screen (m : Mach) : (m.popPc).screen = m.screen := rfl
@[simp] theorem Mach.popPc_dt (m : Mach) : (m.popPc).dt = m.dt := rfl
@[simp] theorem Mach.popPc_st (m : Mach) : (m.popPc).st = m.st := rfl
@[simp] theorem Mach.popPc_mem (m : Mach) : (m.popPc).mem = m.mem := rfl
@[simp] theorem Mach.popPc_fault (m : Mach) : (m.popPc).fault = m.fault := rfl

/-! `Mach.storeAtI` -/

@[simp] theorem Mach.storeAtI_v (m : Mach) (bs : List Byte) : (m.storeAtI bs).v = m.v := rfl
@[simp] theorem Mach.storeAtI_i (m : Mach) (bs : List Byte) : (m.storeAtI bs).i = m.i := rfl
@[simp] theorem Mach.storeAtI_pc (m : Mach) (bs : List Byte) : (m.storeAtI bs).pc = m.pc := rfl
@[simp] theorem Mach.storeAtI_sp (m : Mach) (bs : List Byte) : (m.storeAtI bs).sp = m.sp := rfl
@[simp] theorem Mach.storeAtI_stack (m : Mach) (bs : List Byte) : (m.storeAtI bs).stack = m.stack := rfl
@[simp] theorem Mach.storeAtI_screen (m : Mach) (bs : List Byte) : (m.storeAtI bs).screen = m.screen := rfl
@[simp] theorem Mach.storeAtI_dt (m : Mach) (bs : List Byte) : (m.storeAtI bs).dt = m.dt := rfl
@[simp] theorem Mach.storeAtI_st (m : Mach) (bs : List Byte) : (m.storeAtI bs).st = m.st := rfl
@[simp] theorem Mach.storeAtI_mem (m : Mach) (bs : List Byte) : (m.storeAtI bs).mem = Memory.writeBytes m.mem m.i.toNat bs := rfl
@[simp] theorem Mach.storeAtI_fault (m : Mach) (bs : List Byte) : (m.storeAtI bs).fault = m.fault := rfl

/-! `Mach.advancePc` -/

@[simp] theorem Mach.advancePc_v (m : Mach) (k : Bool) : (m.advancePc k).v = m.v := rfl
@[simp] theorem Mach.advancePc_i (m : Mach) (k : Bool) : (m.advancePc k).i = m.i := rfl
@[simp] theorem Mach.advancePc_pc (m : Mach) (k : Bool) : (m.advancePc k).pc = m.pc + if k then 4 else 2 := rfl
@[simp] theorem Mach.advancePc_sp (m : Mach) (k : Bool) : (m.advancePc k).sp = m.sp := rfl
@[simp] theorem Mach.advancePc_stack (m : Mach) (k : Bool) : (m.advancePc k).stack = m.stack := rfl
@[simp] theorem Mach.advancePc_screen (m : Mach) (k : Bool) : (m.advancePc k).screen = m.screen := rfl
@[simp] theorem Mach.advancePc_dt (m : Mach) (k : Bool) : (m.advancePc k).dt = m.dt := rfl
@[simp] theorem Mach.advancePc_st (m : Mach) (k : Bool) : (m.advancePc k).st = m.st := rfl
@[simp] theorem Mach.advancePc_mem (m : Mach) (k : Bool) : (m.advancePc k).mem = m.mem := rfl
@[simp] theorem Mach.advancePc_fault (m : Mach) (k : Bool) : (m.advancePc k).fault = m.fault := rfl

/-! `Mach.placeWord` -/

@[simp] theorem Mach.placeWord_v (m : Mach) (w : Word) : (m.placeWord w).v = m.v := rfl
@[simp] theorem Mach.placeWord_i (m : Mach) (w : Word) : (m.placeWord w).i = m.i := rfl
@[simp] theorem Mach.placeWord_pc (m : Mach) (w : Word) : (m.placeWord w).pc = m.pc := rfl
@[simp] theorem Mach.placeWord_sp (m : Mach) (w : Word) : (m.placeWord w).sp = m.sp := rfl
@[simp] theorem Mach.placeWord_stack (m : Mach) (w : Word) : (m.placeWord w).stack = m.stack := rfl
@[simp] theorem Mach.placeWord_screen (m : Mach) (w : Word) : (m.placeWord w).screen = m.screen := rfl
@[simp] theorem Mach.placeWord_dt (m : Mach) (w : Word) : (m.placeWord w).dt = m.dt := rfl
@[simp] theorem Mach.placeWord_st (m : Mach) (w : Word) : (m.placeWord w).st = m.st := rfl
@[simp] theorem Mach.placeWord_mem (m : Mach) (w : Word) : (m.placeWord w).mem = Memory.writeBytes m.mem m.pc.toNat [(splitWord w).1, (splitWord w).2] := rfl
@[simp] theorem Mach.placeWord_fault (m : Mach) (w : Word) : (m.placeWord w).fault = m.fault := rfl

/-! Registers -/

/-- A register reads as written, and every other register as before (R9, R20). -/
theorem Mach.getV_setV (m : Mach) (r q : Nibble) (b : Byte) :
    (m.setV r b).getV q = if q = r then b else m.getV q := by
  unfold Mach.getV Mach.setV
  rw [Vector.getElem_set]
  by_cases h : q = r
  · subst h; simp
  · have : r.toNat ≠ q.toNat := fun e => h (BitVec.eq_of_toNat_eq e.symm)
    simp [h, this]

@[simp] theorem Mach.getV_setV_self (m : Mach) (r : Nibble) (b : Byte) : (m.setV r b).getV r = b := by
  simp [Mach.getV_setV]

@[simp] theorem Mach.getV_setV_ne (m : Mach) {r q : Nibble} (b : Byte) (h : q ≠ r) :
    (m.setV r b).getV q = m.getV q := by
  simp [Mach.getV_setV, h]

/-- The register file decides every register: an update that keeps the file keeps each of them. -/
theorem Mach.getV_congr {m m' : Mach} (h : m'.v = m.v) (q : Nibble) : m'.getV q = m.getV q := by
  simp [Mach.getV, h]

/-- An update that keeps the stack keeps each slot. -/
theorem Mach.getStack_congr {m m' : Mach} (h : m'.stack = m.stack) (j : Nibble) : m'.getStack j = m.getStack j := by
  simp [Mach.getStack, h]

/-! Registers and slots under the updates that keep them -/

@[simp] theorem Mach.setV_getStack (m : Mach) (r : Nibble) (b : Byte) (j : Nibble) : (m.setV r b).getStack j = m.getStack j := rfl
@[simp] theorem Mach.setI_getV (m : Mach) (a : Word) (q : Nibble) : (m.setI a).getV q = m.getV q := rfl
@[simp] theorem Mach.setI_getStack (m : Mach) (a : Word) (j : Nibble) : (m.setI a).getStack j = m.getStack j := rfl
@[simp] theorem Mach.setPc_getV (m : Mach) (a : Word) (q : Nibble) : (m.setPc a).getV q = m.getV q := rfl
@[simp] theorem Mach.setPc_getStack (m : Mach) (a : Word) (j : Nibble) : (m.setPc a).getStack j = m.getStack j := rfl
@[simp] theorem Mach.setDt_getV (m : Mach) (b : Byte) (q : Nibble) : (m.setDt b).getV q = m.getV q := rfl
@[simp] theorem Mach.setDt_getStack (m : Mach) (b : Byte) (j : Nibble) : (m.setDt b).getStack j = m.getStack j := rfl
@[simp] theorem Mach.setSt_getV (m : Mach) (b : Byte) (q : Nibble) : (m.setSt b).getV q = m.getV q := rfl
@[simp] theorem Mach.setSt_getStack (m : Mach) (b : Byte) (j : Nibble) : (m.setSt b).getStack j = m.getStack j := rfl
@[simp] theorem Mach.setScreen_getV (m : Mach) (c : Screen) (q : Nibble) : (m.setScreen c).getV q = m.getV q := rfl
@[simp] theorem Mach.setScreen_getStack (m : Mach) (c : Screen) (j : Nibble) : (m.setScreen c).getStack j = m.getStack j := rfl
@[simp] theorem Mach.push_getV (m : Mach) (a : Word) (q : Nibble) : (m.push a).getV q = m.getV q := rfl
@[simp] theorem Mach.popPc_getV (m : Mach) (q : Nibble) : (m.popPc).getV q = m.getV q := rfl
@[simp] theorem Mach.popPc_getStack (m : Mach) (j : Nibble) : (m.popPc).getStack j = m.getStack j := rfl
@[simp] theorem Mach.storeAtI_getV (m : Mach) (bs : List Byte) (q : Nibble) : (m.storeAtI bs).getV q = m.getV q := rfl
@[simp] theorem Mach.storeAtI_getStack (m : Mach) (bs : List Byte) (j : Nibble) : (m.storeAtI bs).getStack j = m.getStack j := rfl
@[simp] theorem Mach.advancePc_getV (m : Mach) (k : Bool) (q : Nibble) : (m.advancePc k).getV q = m.getV q := rfl
@[simp] theorem Mach.advancePc_getStack (m : Mach) (k : Bool) (j : Nibble) : (m.advancePc k).getStack j = m.getStack j := rfl
@[simp] theorem Mach.placeWord_getV (m : Mach) (w : Word) (q : Nibble) : (m.placeWord w).getV q = m.getV q := rfl
@[simp] theorem Mach.placeWord_getStack (m : Mach) (w : Word) (j : Nibble) : (m.placeWord w).getStack j = m.getStack j := rfl

/-- What the push of an address does to each slot (R123). -/
theorem Mach.push_getStack (m : Mach) (a : Word) (j : Nibble) :
    (m.push a).getStack j = if j = m.sp + 1 then a else m.getStack j := by
  unfold Mach.getStack Mach.push
  rw [Vector.getElem_set]
  by_cases h : j = m.sp + 1
  · subst h; simp
  · have : (m.sp + 1).toNat ≠ j.toNat := fun e => h (BitVec.eq_of_toNat_eq e.symm)
    simp only [h, this, if_false]

/-! The tick -/

@[simp] theorem Mach.tickTimers_dt (m : Mach) (k : Bool) : (m.tickTimers k).dt = if k then satdec m.dt else m.dt := by
  cases k <;> rfl

@[simp] theorem Mach.tickTimers_st (m : Mach) (k : Bool) : (m.tickTimers k).st = if k then satdec m.st else m.st := by
  cases k <;> rfl

@[simp] theorem Mach.tickTimers_v (m : Mach) (k : Bool) : (m.tickTimers k).v = m.v := by cases k <;> rfl
@[simp] theorem Mach.tickTimers_i (m : Mach) (k : Bool) : (m.tickTimers k).i = m.i := by cases k <;> rfl
@[simp] theorem Mach.tickTimers_pc (m : Mach) (k : Bool) : (m.tickTimers k).pc = m.pc := by cases k <;> rfl
@[simp] theorem Mach.tickTimers_sp (m : Mach) (k : Bool) : (m.tickTimers k).sp = m.sp := by cases k <;> rfl
@[simp] theorem Mach.tickTimers_stack (m : Mach) (k : Bool) : (m.tickTimers k).stack = m.stack := by cases k <;> rfl
@[simp] theorem Mach.tickTimers_screen (m : Mach) (k : Bool) : (m.tickTimers k).screen = m.screen := by cases k <;> rfl
@[simp] theorem Mach.tickTimers_mem (m : Mach) (k : Bool) : (m.tickTimers k).mem = m.mem := by cases k <;> rfl
@[simp] theorem Mach.tickTimers_fault (m : Mach) (k : Bool) : (m.tickTimers k).fault = m.fault := by cases k <;> rfl

@[simp] theorem Mach.tickTimers_getV (m : Mach) (k : Bool) (q : Nibble) : (m.tickTimers k).getV q = m.getV q :=
  Mach.getV_congr (by simp) q

@[simp] theorem Mach.tickTimers_getStack (m : Mach) (k : Bool) (j : Nibble) :
    (m.tickTimers k).getStack j = m.getStack j :=
  Mach.getStack_congr (by simp) j

/-- `satdec` is a decrement floored at 0 (R108). -/
@[simp] theorem satdec_toNat (b : Byte) : (satdec b).toNat = b.toNat - 1 := by
  unfold satdec
  split
  · next h => subst h; rfl
  · next h =>
    have : b.toNat ≠ 0 := fun e => h (BitVec.eq_of_toNat_eq (by simpa using e))
    have := b.isLt
    rw [BitVec.toNat_sub]; simp; omega

/-! The states an early return and a fault leave -/

@[simp] theorem State.afterEarly_mach (s : State) (m : Mach) : (s.afterEarly m).mach = m := rfl
@[simp] theorem State.afterEarly_inp (s : State) (m : Mach) : (s.afterEarly m).inp = s.inp := rfl
@[simp] theorem State.afterEarly_out (s : State) (m : Mach) : (s.afterEarly m).out = ⟨false, false, false⟩ := rfl
@[simp] theorem State.afterEarly_script (s : State) (m : Mach) : (s.afterEarly m).script = s.script := rfl
@[simp] theorem State.afterEarly_draws (s : State) (m : Mach) : (s.afterEarly m).draws = s.draws := rfl
@[simp] theorem State.afterFault_mach (s : State) (c : FaultCause) (i : Instr) :
    (s.afterFault c i).mach = { s.mach with fault := ⟨c, s.mach.pc, encode i⟩ } := rfl
@[simp] theorem State.afterFault_inp (s : State) (c : FaultCause) (i : Instr) : (s.afterFault c i).inp = s.inp := rfl
@[simp] theorem State.afterFault_out (s : State) (c : FaultCause) (i : Instr) :
    (s.afterFault c i).out = ⟨false, false, false⟩ := rfl
@[simp] theorem State.afterFault_script (s : State) (c : FaultCause) (i : Instr) : (s.afterFault c i).script = s.script := rfl
@[simp] theorem State.afterFault_draws (s : State) (c : FaultCause) (i : Instr) : (s.afterFault c i).draws = s.draws := rfl

/-! The host's presentation -/

@[simp] theorem State.accept_mach (s : State) (h : HostInputs) : (s.accept h).mach = s.mach := rfl
@[simp] theorem State.accept_out (s : State) (h : HostInputs) : (s.accept h).out = s.out := rfl
@[simp] theorem State.idle_mach (s : State) : s.idle.mach = s.mach := rfl
@[simp] theorem State.idle_out (s : State) : s.idle.out = ⟨false, false, false⟩ := rfl
@[simp] theorem State.idle_inp (s : State) : s.idle.inp = s.inp := rfl

@[simp] theorem State.present_mach (s : State) : s.present.mach = s.mach := by
  unfold State.present; split <;> rfl

@[simp] theorem State.present_out (s : State) : s.present.out = s.out := by
  unfold State.present; split <;> rfl

/-- The presentation from a host that has scripted inputs. -/
theorem State.present_script {s : State} {h : HostInputs} {rest : List HostInputs} (hs : s.script = h :: rest) :
    s.present = { s.accept h with script := rest } := by
  unfold State.present; rw [hs]

/-- The presentation of a free value. -/
theorem State.present_free {s : State} (hs : s.script = []) :
    s.present = { s.accept (Config.hostInputs s.draws) with draws := s.draws + 1 } := by
  unfold State.present; rw [hs]

/-- All the host's presentation can do: accept one set of inputs (R240). -/
theorem State.present_inp (s : State) : ∃ h, s.present.inp = (s.accept h).inp := by
  unfold State.present; split
  · exact ⟨_, rfl⟩
  · exact ⟨_, rfl⟩

/-! The register widths -/

/-- The types of the registers have the widths of R7, and a nibble names every general register, every slot of the stack and every
key (R20, R27, R32). -/
theorem widths_of_types :
    Byte = BitVec Config.vWidth ∧ Byte = BitVec Config.timerWidth ∧ Word = BitVec Config.iWidth ∧ Word = BitVec Config.pcWidth ∧
    Config.numV = 2 ^ 4 ∧ Config.stackSlots = 2 ^ 4 ∧ Config.keyRange = 2 ^ 4 := ⟨rfl, rfl, rfl, rfl, rfl, rfl, rfl⟩

end Sys2Proof.Machine
end

