-- ==== Sys2Proof/Laws/Display.lean ====
section
/-! SUPPORT. What the drawing operations do to each pixel and to the collision flag (R171 to R173). -/

namespace Sys2Proof.Machine

/-- A pixel inside the grid, as the element it is. -/
theorem Screen.pixel_inside (scr : Screen) {x y : Nat} (hx : x < Config.screenW) (hy : y < Config.screenH) :
    Screen.pixel scr x y = (scr[y]'hy)[x]'hx := by
  unfold Screen.pixel
  exact dif_pos (show x < Config.screenW ∧ y < Config.screenH from ⟨hx, hy⟩)

/-- A toggle changes the one pixel, inside the grid, and no other (R171). -/
theorem Screen.pixel_toggle (scr : Screen) (x y px py : Nat) (hx : px < Config.screenW) (hy : py < Config.screenH) :
    Screen.pixel (Screen.toggle scr x y) px py =
      if px = x ∧ py = y then !Screen.pixel scr px py else Screen.pixel scr px py := by
  unfold Screen.toggle
  by_cases h : x < Config.screenW ∧ y < Config.screenH
  · rw [dif_pos h, Screen.pixel_inside _ hx hy, Screen.pixel_inside _ hx hy]
    by_cases hyy : y = py
    · subst hyy
      by_cases hxx : x = px
      · subst hxx; simp
      · have hne : ¬ px = x := fun e => hxx e.symm
        simp [hxx, hne]
    · have hne : ¬ py = y := fun e => hyy e.symm
      simp [hyy, hne]
  · rw [dif_neg h, if_neg]
    rintro ⟨rfl, rfl⟩; exact h ⟨hx, hy⟩

/-- Every pixel of a blank screen is off (R170). -/
@[simp] theorem Screen.pixel_blank (x y : Nat) : Screen.pixel Screen.blank x y = false := by
  unfold Screen.pixel Screen.blank
  split <;> simp

/-- One sprite bit, in terms of the pixels inside the grid: it flips the pixel where it is set and lands, and it notes a collision
where that pixel was on (R171, R173). -/
theorem pixel_drawBit (bit : Bool) (x y px py : Nat) (d : Drawing) (hx : px < Config.screenW) (hy : py < Config.screenH) :
    Screen.pixel (drawBit bit x y d).1 px py =
      if px = x ∧ py = y ∧ bit = true then !Screen.pixel d.1 px py else Screen.pixel d.1 px py := by
  unfold drawBit
  by_cases h : bit = true ∧ x < Config.screenW ∧ y < Config.screenH
  · rw [if_pos h, Screen.pixel_toggle _ _ _ _ _ hx hy]
    by_cases he : px = x ∧ py = y
    · rw [if_pos he, if_pos ⟨he.1, he.2, h.1⟩]
    · rw [if_neg he, if_neg (fun e => he ⟨e.1, e.2.1⟩)]
  · rw [if_neg h, if_neg]
    rintro ⟨rfl, rfl, hb⟩; exact h ⟨hb, hx, hy⟩

/-- When one sprite bit makes the collision flag 1 (R171). -/
theorem collision_drawBit (bit : Bool) (x y : Nat) (d : Drawing) :
    (drawBit bit x y d).2 = true ↔
      d.2 = true ∨ (bit = true ∧ x < Config.screenW ∧ y < Config.screenH ∧ Screen.pixel d.1 x y = true) := by
  unfold drawBit
  by_cases h : bit = true ∧ x < Config.screenW ∧ y < Config.screenH
  · rw [if_pos h]; simp [h.1, h.2.1, h.2.2]
  · rw [if_neg h]
    constructor
    · exact .inl
    · rintro (hd | ⟨hb, hx, hy, -⟩)
      · exact hd
      · exact absurd ⟨hb, hx, hy⟩ h

/-- A drawing operation flips exactly the pixels of `Q` that are inside the grid, and it notes a collision exactly where one of
them was on. -/
def Draws (f : Drawing → Drawing) (Q : Nat → Nat → Prop) : Prop :=
  ∀ d : Drawing,
    (∀ px py, px < Config.screenW → py < Config.screenH →
      (Q px py → Screen.pixel (f d).1 px py = !Screen.pixel d.1 px py) ∧
      (¬ Q px py → Screen.pixel (f d).1 px py = Screen.pixel d.1 px py)) ∧
    ((f d).2 = true ↔ d.2 = true ∨
      ∃ px py, px < Config.screenW ∧ py < Config.screenH ∧ Q px py ∧ Screen.pixel d.1 px py = true)

/-- Drawing nothing draws no pixel. -/
theorem draws_nothing : Draws id (fun _ _ => False) := by
  intro d; simp

/-- Two drawings one after the other, of pixels that do not overlap. -/
theorem Draws.comp {f g : Drawing → Drawing} {P Q : Nat → Nat → Prop} (hf : Draws f P) (hg : Draws g Q)
    (hd : ∀ px py, P px py → ¬ Q px py) : Draws (fun d => g (f d)) (fun px py => P px py ∨ Q px py) := by
  intro d
  obtain ⟨fp, fc⟩ := hf d
  obtain ⟨gp, gc⟩ := hg (f d)
  refine ⟨fun px py hx hy => ⟨?_, ?_⟩, ?_⟩
  · rintro (h | h)
    · rw [(gp px py hx hy).2 (hd px py h), (fp px py hx hy).1 h]
    · rw [(gp px py hx hy).1 h, (fp px py hx hy).2 (fun hp => hd px py hp h)]
  · intro h
    rw [(gp px py hx hy).2 (fun hq => h (.inr hq)), (fp px py hx hy).2 (fun hp => h (.inl hp))]
  · rw [gc, fc]
    constructor
    · rintro ((h | ⟨px, py, hx, hy, hp, ho⟩) | ⟨px, py, hx, hy, hq, ho⟩)
      · exact .inl h
      · exact .inr ⟨px, py, hx, hy, .inl hp, ho⟩
      · rw [(fp px py hx hy).2 (fun hp => hd px py hp hq)] at ho
        exact .inr ⟨px, py, hx, hy, .inr hq, ho⟩
    · rintro (h | ⟨px, py, hx, hy, hp | hq, ho⟩)
      · exact .inl (.inl h)
      · exact .inl (.inr ⟨px, py, hx, hy, hp, ho⟩)
      · refine .inr ⟨px, py, hx, hy, hq, ?_⟩
        rw [(fp px py hx hy).2 (fun hp => hd px py hp hq)]; exact ho

theorem Draws.congr {f : Drawing → Drawing} {P Q : Nat → Nat → Prop} (hf : Draws f P)
    (h : ∀ px py, P px py ↔ Q px py) : Draws f Q := by
  have : P = Q := funext fun px => funext fun py => propext (h px py)
  exact this ▸ hf

/-- A run of drawings of pixels that do not overlap. -/
theorem Draws.foldl {f : Nat → Drawing → Drawing} {Q : Nat → Nat → Nat → Prop} (hf : ∀ k, Draws (f k) (Q k))
    (hd : ∀ j k px py, Q j px py → Q k px py → j = k) (n : Nat) :
    Draws (fun d => (List.range n).foldl (fun d k => f k d) d) (fun px py => ∃ k, k < n ∧ Q k px py) := by
  induction n with
  | zero => exact draws_nothing.congr (by simp)
  | succ n ih =>
    have hfold : (fun d => (List.range (n + 1)).foldl (fun d k => f k d) d) =
        fun d => f n ((List.range n).foldl (fun d k => f k d) d) := by
      funext d; rw [List.range_succ, List.foldl_append]; rfl
    rw [hfold]
    refine (ih.comp (hf n) ?_).congr ?_
    · rintro px py ⟨k, hk, hq⟩ hn
      exact absurd (hd k n px py hq hn) (by omega)
    · intro px py
      constructor
      · rintro (⟨k, hk, hq⟩ | hq)
        · exact ⟨k, by omega, hq⟩
        · exact ⟨n, by omega, hq⟩
      · rintro ⟨k, hk, hq⟩
        by_cases h : k = n
        · exact .inr (h ▸ hq)
        · exact .inl ⟨k, by omega, hq⟩

theorem draws_bit (bit : Bool) (x y : Nat) :
    Draws (drawBit bit x y) (fun px py => px = x ∧ py = y ∧ bit = true) := by
  intro d
  refine ⟨fun px py hx hy => ⟨fun h => ?_, fun h => ?_⟩, ?_⟩
  · rw [pixel_drawBit _ _ _ _ _ _ hx hy, if_pos h]
  · rw [pixel_drawBit _ _ _ _ _ _ hx hy, if_neg h]
  · rw [collision_drawBit]
    constructor
    · rintro (h | ⟨hb, hx, hy, ho⟩)
      · exact .inl h
      · exact .inr ⟨x, y, hx, hy, ⟨rfl, rfl, hb⟩, ho⟩
    · rintro (h | ⟨px, py, hx, hy, ⟨rfl, rfl, hb⟩, ho⟩)
      · exact .inl h
      · exact .inr ⟨hb, hx, hy, ho⟩

/-- A sprite row draws its set bits, bit 7 leftmost (R172). -/
theorem draws_row (row : Byte) (x0 y : Nat) :
    Draws (drawRow row x0 y)
      (fun px py => ∃ c, c < 8 ∧ px = x0 + c ∧ py = y ∧ row.getLsbD (7 - c) = true) :=
  Draws.foldl (Q := fun c px py => px = x0 + c ∧ py = y ∧ row.getLsbD (7 - c) = true)
    (fun c => draws_bit _ _ _) (fun j k px py hj hk => by omega) 8

/-- A sprite draws the set bits of its rows inside memory (R171, R173). -/
theorem draws_sprite (mem : Memory) (base x0 y0 n : Nat) :
    Draws (drawSprite mem base x0 y0 n)
      (fun px py => ∃ r, r < n ∧ ∃ b, Memory.read mem (base + r) = some b ∧
        ∃ c, c < 8 ∧ px = x0 + c ∧ py = y0 + r ∧ b.getLsbD (7 - c) = true) := by
  refine Draws.foldl
    (f := fun r d => match Memory.read mem (base + r) with
      | some row => drawRow row x0 (y0 + r) d
      | none => d)
    (fun r => ?_) (fun j k px py hj hk => ?_) n
  · cases h : Memory.read mem (base + r) with
    | none => exact draws_nothing.congr (by simp)
    | some row => exact (draws_row row x0 (y0 + r)).congr (by simp)
  · obtain ⟨_, _, _, _, _, h1, _⟩ := hj
    obtain ⟨_, _, _, _, _, h2, _⟩ := hk
    omega

end Sys2Proof.Machine
end

