-- ==== Sys2Proof/Laws/Memory.lean ====
section
/-! SUPPORT. What reading gives after writing, and that every memory operation keeps the canonical form (R52, R53, R60). -/

namespace Sys2Proof.Machine

/-- An unlisted byte is the font's, and zero past it (R38, R260). -/
theorem resetByte_eq (a : Nat) : Config.resetByte a = Config.font.getD a 0 := by
  unfold Config.resetByte
  split
  · rfl
  · next h =>
    have hl : Config.font.length = Config.fontSize := by decide
    have ha : Config.font.length ≤ a := by
      rw [hl]; by_contra hlt; exact h ⟨Nat.zero_le a, by rw [Nat.zero_add]; exact Nat.lt_of_not_le hlt⟩
    rw [List.getD_eq_getElem?_getD, List.getElem?_eq_none ha]; rfl

theorem Memory.lookup_erase (m : Memory) (a b : Nat) :
    Memory.lookup (Memory.erase m a) b = if b = a then Config.resetByte a else Memory.lookup m b := by
  induction m with
  | nil => simp only [Memory.erase, Memory.lookup]; split <;> simp_all
  | cons c rest ih =>
    obtain ⟨k, v⟩ := c
    by_cases hk : a = k
    · subst hk
      rw [Memory.erase, if_pos rfl, ih]
      by_cases hb : b = a <;> simp [Memory.lookup, hb]
    · by_cases hb : b = k
      · subst hb
        have hba : ¬ b = a := fun e => hk e.symm
        simp [Memory.erase, Memory.lookup, hk, hba]
      · simp [Memory.erase, Memory.lookup, hk, hb, ih]

theorem Memory.lookup_insert (m : Memory) (a b : Nat) (w : Byte) :
    Memory.lookup (Memory.insert m a w) b = if b = a then w else Memory.lookup m b := by
  induction m with
  | nil => rfl
  | cons c rest ih =>
    obtain ⟨k, v⟩ := c
    by_cases hlt : a < k
    · simp [Memory.insert, Memory.lookup, hlt]
    · by_cases hk : a = k
      · subst hk
        by_cases hb : b = a <;> simp [Memory.insert, Memory.lookup, hb]
      · by_cases hb : b = k
        · subst hb
          have hba : ¬ b = a := fun e => hk e.symm
          simp [Memory.insert, Memory.lookup, hlt, hk, hba]
        · simp [Memory.insert, Memory.lookup, hlt, hk, hb, ih]

/-- A write gives back what was written, at an address that exists, and leaves every other address alone (R53, R60). -/
theorem Memory.read_write (m : Memory) (a b : Nat) (w : Byte) :
    Memory.read (Memory.write m a w) b = if b = a ∧ b < Config.memSize then some w else Memory.read m b := by
  by_cases ha : a < Config.memSize
  · by_cases hw : w = Config.resetByte a
    · by_cases hb : b = a
      · subst hb; simp only [Memory.read, Memory.write, ha, hw, if_true, Memory.lookup_erase, and_self]
      · simp only [Memory.read, Memory.write, ha, hw, if_true, Memory.lookup_erase, hb, if_false, false_and]
    · by_cases hb : b = a
      · subst hb; simp only [Memory.read, Memory.write, ha, hw, if_true, if_false, Memory.lookup_insert, and_self]
      · simp only [Memory.read, Memory.write, ha, hw, if_true, Memory.lookup_insert, hb, if_false, false_and]
  · have hn : ¬ (b = a ∧ b < Config.memSize) := fun h => ha (h.1 ▸ h.2)
    simp only [Memory.write, ha, if_false, hn]

/-- Reading after a run of bytes was written: the bytes where they went, and every other address as before (R213, R214). -/
theorem Memory.read_writeBytes (ws : List Byte) (m : Memory) (a b : Nat) :
    Memory.read (Memory.writeBytes m a ws) b =
      if a ≤ b ∧ b < a + ws.length ∧ b < Config.memSize then ws[b - a]? else Memory.read m b := by
  induction ws generalizing m a with
  | nil =>
    have : ¬ (a ≤ b ∧ b < a + ([] : List Byte).length ∧ b < Config.memSize) := by simp; omega
    simp only [Memory.writeBytes, this, if_false]
  | cons w ws ih =>
    rw [Memory.writeBytes, ih, Memory.read_write]
    by_cases hlt : b < Config.memSize
    · by_cases hba : b = a
      · subst hba
        have h1 : ¬ (b + 1 ≤ b ∧ b < b + 1 + ws.length ∧ b < Config.memSize) := by omega
        have h2 : b ≤ b ∧ b < b + (w :: ws).length ∧ b < Config.memSize := by
          refine ⟨le_refl _, ?_, hlt⟩; simp
        rw [if_neg h1, if_pos ⟨rfl, hlt⟩, if_pos h2]; simp
      · rw [if_neg (c := b = a ∧ b < Config.memSize) (fun h => hba h.1)]
        by_cases hr : a + 1 ≤ b ∧ b < a + 1 + ws.length
        · have h2 : a ≤ b ∧ b < a + (w :: ws).length ∧ b < Config.memSize := by
            refine ⟨by omega, ?_, hlt⟩; simp only [List.length_cons]; omega
          rw [if_pos ⟨hr.1, hr.2, hlt⟩, if_pos h2]
          have : b - a = (b - (a + 1)) + 1 := by omega
          rw [this, List.getElem?_cons_succ]
        · have h1 : ¬ (a + 1 ≤ b ∧ b < a + 1 + ws.length ∧ b < Config.memSize) := fun h => hr ⟨h.1, h.2.1⟩
          have h2 : ¬ (a ≤ b ∧ b < a + (w :: ws).length ∧ b < Config.memSize) := by
            simp only [List.length_cons]; omega
          rw [if_neg h1, if_neg h2]
    · have h1 : ¬ (a + 1 ≤ b ∧ b < a + 1 + ws.length ∧ b < Config.memSize) := fun h => hlt h.2.2
      have h2 : ¬ (a ≤ b ∧ b < a + (w :: ws).length ∧ b < Config.memSize) := fun h => hlt h.2.2
      have h3 : ¬ (b = a ∧ b < Config.memSize) := fun h => hlt h.2
      rw [if_neg h1, if_neg h2, if_neg h3]

/-- An address that exists reads as some byte (R52). -/
theorem Memory.read_isSome (m : Memory) {a : Nat} (h : a < Config.memSize) :
    Memory.read m a = some (Memory.lookup m a) := by
  simp only [Memory.read, h, if_true]

/-- An address that does not exist reads as nothing (R52). -/
theorem Memory.read_none (m : Memory) {a : Nat} (h : ¬ a < Config.memSize) : Memory.read m a = none := by
  simp only [Memory.read, h, if_false]

/-! ### The canonical form -/

theorem Memory.mem_erase {m : Memory} {a : Nat} {c : Host.Cell} (h : c ∈ Memory.erase m a) : c ∈ m := by
  induction m with
  | nil => exact h
  | cons d rest ih =>
    obtain ⟨k, v⟩ := d
    rw [Memory.erase] at h
    split at h
    · exact List.mem_cons_of_mem _ (ih h)
    · rcases List.mem_cons.1 h with rfl | h
      · exact List.mem_cons_self
      · exact List.mem_cons_of_mem _ (ih h)

theorem Memory.mem_insert {m : Memory} {a : Nat} {w : Byte} {c : Host.Cell} (h : c ∈ Memory.insert m a w) :
    c = (a, w) ∨ c ∈ m := by
  induction m with
  | nil => exact .inl (by simpa [Memory.insert] using h)
  | cons d rest ih =>
    obtain ⟨k, v⟩ := d
    rw [Memory.insert] at h
    split at h
    · exact (List.mem_cons.1 h).imp_right id
    · split at h
      · exact (List.mem_cons.1 h).imp_right (List.mem_cons_of_mem _)
      · rcases List.mem_cons.1 h with rfl | h
        · exact .inr List.mem_cons_self
        · exact (ih h).imp_right (List.mem_cons_of_mem _)

theorem Memory.sorted_erase {m : Memory} (a : Nat) (h : m.Pairwise (fun c d => c.1 < d.1)) :
    (Memory.erase m a).Pairwise (fun c d => c.1 < d.1) := by
  induction m with
  | nil => exact h
  | cons d rest ih =>
    obtain ⟨k, v⟩ := d
    rw [List.pairwise_cons] at h
    rw [Memory.erase]
    split
    · exact ih h.2
    · exact List.pairwise_cons.2 ⟨fun c hc => h.1 c (Memory.mem_erase hc), ih h.2⟩

theorem Memory.sorted_insert {m : Memory} (a : Nat) (w : Byte) (h : m.Pairwise (fun c d => c.1 < d.1)) :
    (Memory.insert m a w).Pairwise (fun c d => c.1 < d.1) := by
  induction m with
  | nil => simp [Memory.insert]
  | cons d rest ih =>
    obtain ⟨k, v⟩ := d
    have hc := List.pairwise_cons.1 h
    rw [Memory.insert]
    split
    · next hlt =>
      refine List.pairwise_cons.2 ⟨fun c hmem => ?_, h⟩
      rcases List.mem_cons.1 hmem with rfl | hmem
      · exact hlt
      · exact lt_trans hlt (hc.1 c hmem)
    · split
      · next hk => subst hk; exact List.pairwise_cons.2 ⟨hc.1, hc.2⟩
      · next hlt hk =>
        refine List.pairwise_cons.2 ⟨fun c hmem => ?_, ih hc.2⟩
        rcases Memory.mem_insert hmem with rfl | hmem
        · show k < a; omega
        · exact hc.1 c hmem

/-- A write keeps the canonical form. -/
theorem Memory.wf_write {m : Memory} (a : Nat) (w : Byte) (h : Memory.wf m) : Memory.wf (Memory.write m a w) := by
  unfold Memory.write
  split
  · next ha =>
    split
    · exact ⟨Memory.sorted_erase a h.1, fun c hc => h.2 c (Memory.mem_erase hc)⟩
    · next hw =>
      refine ⟨Memory.sorted_insert a w h.1, fun c hc => ?_⟩
      rcases Memory.mem_insert hc with rfl | hc
      · exact ⟨ha, hw⟩
      · exact h.2 c hc
  · exact h

/-- A run of writes keeps the canonical form. -/
theorem Memory.wf_writeBytes (ws : List Byte) {m : Memory} (a : Nat) (h : Memory.wf m) :
    Memory.wf (Memory.writeBytes m a ws) := by
  induction ws generalizing m a with
  | nil => exact h
  | cons w ws ih => exact ih (a + 1) (Memory.wf_write a w h)

/-- The memory after reset is in canonical form. -/
theorem Memory.wf_reset : Memory.wf State.reset.mach.mem := by decide

/-- The memory after the load of any ROM is in canonical form (R260). -/
theorem Memory.wf_load (rom : List Byte) : Memory.wf (State.load rom).mach.mem :=
  Memory.wf_writeBytes _ _ Memory.wf_reset

end Sys2Proof.Machine
end

