-- ==== Sys2Proof/Laws/Ops.lean ====
section
/-! SUPPORT. What each shared operation can do, said once: the three ends of a handler, the fetch, the registers loaded from
memory, the flag write, and the shape of every instruction (R104). -/

namespace Sys2Proof.Machine

open Sys2Proof.Safety

/-- All that `Tail` leaves (R106). -/
theorem State.tail_next {s t : State} {m : Mach} {skip changed keyClear : Bool}
    (h : s.tail m skip changed keyClear = .next t) :
    t.mach = (m.tickTimers s.inp.tick).advancePc skip ∧
    t.inp = ⟨slotAfter keyClear s.inp.key, s.inp.tick, s.inp.rnd⟩ ∧
    t.out = ⟨keyClear, changed, s.inp.tick⟩ ∧ t.script = s.script ∧ t.draws = s.draws := by
  cases h; exact ⟨rfl, rfl, rfl, rfl, rfl⟩

/-- All that `Early` leaves (R105). -/
theorem State.early_next {s t : State} {m : Mach} (h : s.early m = .next t) :
    t.mach = m ∧ t.inp = s.inp ∧ t.out = ⟨false, false, false⟩ ∧ t.script = s.script ∧ t.draws = s.draws := by
  cases h; exact ⟨rfl, rfl, rfl, rfl, rfl⟩

/-- All that taking a fault leaves (R111, R231). -/
theorem State.raiseFault_next {s t : State} {c : FaultCause} {i : Instr} (h : s.raiseFault c i = .next t) :
    t.mach = { s.mach with fault := ⟨c, s.mach.pc, encode i⟩ } ∧ t.inp = s.inp ∧ t.out = ⟨false, false, false⟩ ∧
    t.script = s.script ∧ t.draws = s.draws := by
  cases h; exact ⟨rfl, rfl, rfl, rfl, rfl⟩

/-- A result and its flag: VF holds the flag whatever x is; V[x], for another x, the result; the rest is unchanged (R142). -/
theorem Mach.getV_setResult (m : Mach) (x q : Nibble) (r : Byte × Bool) :
    (m.setResult x r).getV q = if q = vf then flagByte r.2 else if q = x then r.1 else m.getV q := by
  simp [Mach.setResult, Mach.getV_setV]

/-- VF after a result and its flag. -/
theorem Mach.getV_setResult_flag (m : Mach) (x : Nibble) (r : Byte × Bool) :
    (m.setResult x r).getV 0xF = flagByte r.2 := by
  rw [Mach.getV_setResult]; exact if_pos rfl

/-- The same, as simp writes the register number. -/
@[simp] theorem Mach.getV_setResult_vf (m : Mach) (x : Nibble) (r : Byte × Bool) :
    (m.setResult x r).getV 15#4 = flagByte r.2 :=
  Mach.getV_setResult_flag m x r

/-- The destination after a result and its flag, when it is not VF. -/
theorem Mach.getV_setResult_dest (m : Mach) {x : Nibble} (r : Byte × Bool) (h : x ≠ 0xF) :
    (m.setResult x r).getV x = r.1 := by
  rw [Mach.getV_setResult]; exact (if_neg h).trans (if_pos rfl)

/-- A flag byte as a number. -/
@[simp] theorem flagByte_toNat (f : Bool) : (flagByte f).toNat = if f then 1 else 0 := by cases f <;> rfl

/-- A widened address immediate has its value (R72). -/
@[simp] theorem addrOf_toNat (nnn : Imm12) : (addrOf nnn).toNat = nnn.toNat := by
  have := nnn.isLt
  simp [addrOf]; omega

/-- A widened byte has its value (R9). -/
@[simp] theorem wordOf_toNat (b : Byte) : (wordOf b).toNat = b.toNat := by
  have := b.isLt
  simp [wordOf]; omega

/-- A key as a byte has its value (44_keys.md). -/
@[simp] theorem keyByte_toNat (k : Nibble) : (keyByte k).toNat = k.toNat := by
  have := k.isLt
  simp [keyByte]; omega

/-- When the held key matches (R190, R191). -/
theorem State.keyMatches_iff (s : State) (x : Nibble) :
    s.keyMatches x = true ↔ ∃ k, s.inp.key = some k ∧ k.toNat = (s.mach.getV x).toNat := by
  unfold State.keyMatches
  cases h : s.inp.key with
  | none => simp
  | some k =>
    constructor
    · intro e; exact ⟨k, rfl, by rw [← eq_of_beq e, keyByte_toNat]⟩
    · rintro ⟨k', hk, e⟩
      cases hk
      exact beq_of_eq (BitVec.eq_of_toNat_eq (by rw [keyByte_toNat, e]))

/-- When the held key does not match, or there is none (R190, R191). -/
theorem State.keyMatches_eq_false_iff (s : State) (x : Nibble) :
    s.keyMatches x = false ↔ ¬ ∃ k, s.inp.key = some k ∧ k.toNat = (s.mach.getV x).toNat := by
  rw [← State.keyMatches_iff, Bool.not_eq_true]

/-- Below the halt boundary the fetch reads the two bytes at PC and PC + 1 (R56, R102). -/
theorem Mach.fetch_eq {m : Mach} (h : m.pc.toNat < 0xFFE) :
    m.fetch = some (joinBytes (Memory.lookup m.mem m.pc.toNat) (Memory.lookup m.mem (m.pc.toNat + 1))) := by
  have h0 : m.pc.toNat < Config.memSize := by simp only [Config.memSize]; omega
  have h1 : m.pc.toNat + 1 < Config.memSize := by simp only [Config.memSize]; omega
  simp only [Mach.fetch, Memory.read_isSome _ h0, Memory.read_isSome _ h1]

/-- The halt check as a comparison of numbers (R101). -/
theorem Mach.halted_iff (m : Mach) : m.halted = true ↔ 0xFFE ≤ m.pc.toNat := by
  simp [Mach.halted, BitVec.le_def]

theorem Mach.faulted_iff (m : Mach) : m.faulted = true ↔ m.fault.cause ≠ .noFault := by
  simp [Mach.faulted]

/-- The host's presentation decides nothing about whether the core runs. -/
@[simp] theorem running_present (s : State) : Running s.present ↔ Running s := by simp [Running]

/-- On the inputs presented, a core that is halted or faulted only idles (R101, R111). -/
theorem stepPresented_idle {s : State} (h : ¬ Running s) : stepPresented s = .next s.idle := by
  unfold stepPresented
  by_cases hf : s.mach.fault.cause = .noFault
  · have hh : s.mach.halted = true := by
      rw [Mach.halted_iff]; by_contra hlt; exact h ⟨hf, by omega⟩
    by_cases hq : s.mach.faulted = true
    · rw [if_pos hq]
    · rw [if_neg hq, if_pos hh]
  · rw [if_pos ((Mach.faulted_iff _).2 hf)]

/-- On the inputs presented, a running core executes the word it fetches (R103). -/
theorem stepPresented_running {s : State} {w : Word} (h : Running s) (hw : s.mach.fetch = some w) :
    stepPresented s = exec (decode w) s := by
  have hf : ¬ s.mach.faulted = true := fun e => (Mach.faulted_iff _).1 e h.1
  have hh : ¬ s.mach.halted = true := fun e => by have := (Mach.halted_iff _).1 e; have := h.2; omega
  unfold stepPresented
  rw [if_neg hf, if_neg hh, hw]

/-- A core that is halted or faulted only idles (R101, R111). -/
theorem step_idle {s : State} (h : ¬ Running s) : step s = .next s.present.idle :=
  stepPresented_idle (by simpa using h)

/-- A running core executes the word it fetches, on the inputs presented (R103, R240). -/
theorem step_running {s : State} {w : Word} (h : Running s) (hw : s.mach.fetch = some w) :
    step s = exec (decode w) s.present :=
  stepPresented_running (by simpa using h) (by simpa using hw)

/-- The registers loaded by one read of the list `ks` of offsets (R215). -/
theorem Mach.foldl_loadReg (ks : List Nat) (m : Mach) :
    ks.foldl Mach.loadReg m = { m with v := (ks.foldl Mach.loadReg m).v } := by
  induction ks generalizing m with
  | nil => rfl
  | cons k ks ih =>
    rw [List.foldl_cons, ih (m.loadReg k)]
    unfold Mach.loadReg; split <;> rfl

/-- What one load does to a register (R215). -/
theorem Mach.getV_loadReg (m : Mach) (k : Nat) (q : Nibble) (hin : m.i.toNat + k < Config.memSize) :
    (m.loadReg k).getV q = if q.toNat = k then Memory.lookup m.mem (m.i.toNat + k) else m.getV q := by
  unfold Mach.loadReg Mach.getV
  rw [Memory.read_isSome _ hin]
  simp only [Vector.getElem_setIfInBounds]
  by_cases h : q.toNat = k
  · simp [h]
  · rw [if_neg (fun e => h e.symm), if_neg h]

theorem Mach.getV_foldl_loadReg (n : Nat) (m : Mach) (q : Nibble) (hin : ∀ k, k < n → m.i.toNat + k < Config.memSize) :
    ((List.range n).foldl Mach.loadReg m).getV q =
      if q.toNat < n then Memory.lookup m.mem (m.i.toNat + q.toNat) else m.getV q := by
  induction n with
  | zero => simp
  | succ n ih =>
    have ih := ih (fun k hk => hin k (by omega))
    rw [List.range_succ, List.foldl_append, List.foldl_cons, List.foldl_nil]
    have hi : ((List.range n).foldl Mach.loadReg m).i = m.i := by rw [Mach.foldl_loadReg]
    have hm : ((List.range n).foldl Mach.loadReg m).mem = m.mem := by rw [Mach.foldl_loadReg]
    rw [Mach.getV_loadReg _ _ _ (by rw [hi]; exact hin n (by omega)), ih, hi, hm]
    by_cases h : q.toNat = n
    · rw [if_pos h, if_pos (by omega), h]
    · rw [if_neg h]
      by_cases h2 : q.toNat < n
      · rw [if_pos h2, if_pos (by omega)]
      · rw [if_neg h2, if_neg (by omega)]

/-- V0 to Vx hold the bytes from I on, and the registers above x are unchanged (R215). -/
theorem Mach.getV_loadRegs (m : Mach) (x q : Nibble) (hin : m.i.toNat + x.toNat < Config.memSize) :
    (m.loadRegs x).getV q =
      if q.toNat ≤ x.toNat then Memory.lookup m.mem (m.i.toNat + q.toNat) else m.getV q := by
  unfold Mach.loadRegs
  rw [Mach.getV_foldl_loadReg _ _ _ (fun k hk => by simp only [Config.memSize] at *; omega)]
  simp only [Nat.lt_succ_iff]

/-- Loading registers changes the register file alone (R215). -/
theorem Mach.loadRegs_eq (m : Mach) (x : Nibble) : m.loadRegs x = { m with v := (m.loadRegs x).v } :=
  Mach.foldl_loadReg _ _

/-- How many bytes Fx55 stores (R214). -/
theorem Mach.regsUpTo_length (m : Mach) (x : Nibble) : (m.regsUpTo x).length = x.toNat + 1 := by
  have := x.isLt
  simp [Mach.regsUpTo]; omega

/-- The byte of V[k] among those Fx55 stores (R214). -/
theorem Mach.regsUpTo_getElem? (m : Mach) (x k : Nibble) (h : k.toNat ≤ x.toNat) :
    (m.regsUpTo x)[k.toNat]? = some (m.getV k) := by
  have := k.isLt
  rw [Mach.regsUpTo, List.getElem?_take_of_lt (by omega)]
  simp [Mach.getV]

/-- What the bounds check of an I-based access says (R54). -/
theorem Mach.reachable_iff (m : Mach) (k : Nat) : m.reachable k = true ↔ m.i.toNat + k < 4095 := by
  simp [Mach.reachable, Config.memSize]

/-- THE SHAPE OF EVERY INSTRUCTION: it returns early, reaches the tail, or takes the one fault the table of R230 gives it,
each exactly where the tables of R104 and R230 say so. -/
theorem exec_shape (i : Instr) (s : State) :
    (returnsEarly i s = true ∧ faultOf i s = none ∧ ∃ m, exec i s = s.early m) ∨
    (reachesTail i s = true ∧ ∃ m skip changed keyClear, exec i s = s.tail m skip changed keyClear) ∨
    (∃ c, faultOf i s = some c ∧ exec i s = s.raiseFault c i) := by
  cases i
  case ret =>
    by_cases h : s.mach.sp = 0
    · exact .inr (.inr ⟨.stackUnderflow, by simp [faultOf, h], by simp only [exec, execRet, h, if_true]⟩)
    · have hn : s.mach.sp.toNat ≠ 0 := fun e => h (BitVec.eq_of_toNat_eq e)
      exact .inl ⟨rfl, if_neg hn, s.mach.popPc, if_neg h⟩
  case call nnn =>
    by_cases h : s.mach.sp = Config.stackDepth
    · exact .inr (.inr ⟨.stackOverflow, if_pos (by rw [h]; rfl), if_pos h⟩)
    · have hn : s.mach.sp.toNat ≠ 15 := fun e => h (BitVec.eq_of_toNat_eq e)
      exact .inl ⟨rfl, if_neg hn, _, if_neg h⟩
  case jp nnn => exact .inl ⟨rfl, rfl, _, rfl⟩
  case jpV0 nnn => exact .inl ⟨rfl, rfl, _, rfl⟩
  case ldK x =>
    cases h : s.inp.key with
    | none => exact .inl ⟨by simp [returnsEarly, h], rfl, s.mach, by simp [exec, execLdK, State.early, h]⟩
    | some k =>
      exact .inr (.inl ⟨by simp [reachesTail, returnsEarly, faultOf, h], s.mach.setV x (keyByte k), false, false, true,
        by simp only [exec, execLdK, State.tail, h]⟩)
  case ldB x =>
    by_cases h : s.mach.reachable 2 = true
    · have hlt := (Mach.reachable_iff _ _).1 h
      have hf : faultOf (.ldB x) s = none := if_neg (by omega)
      exact .inr (.inl ⟨by simp [reachesTail, returnsEarly, hf], _, false, false, false, if_pos h⟩)
    · have hge : s.mach.i.toNat + 2 ≥ 4095 := by by_contra hlt; exact h ((Mach.reachable_iff _ _).2 (by omega))
      exact .inr (.inr ⟨.memBoundsWrite, if_pos hge, if_neg h⟩)
  case ldMemStore x =>
    by_cases h : s.mach.reachable x.toNat = true
    · have hlt := (Mach.reachable_iff _ _).1 h
      have hf : faultOf (.ldMemStore x) s = none := if_neg (by omega)
      exact .inr (.inl ⟨by simp [reachesTail, returnsEarly, hf], _, false, false, false, if_pos h⟩)
    · have hge : s.mach.i.toNat + x.toNat ≥ 4095 := by
        by_contra hlt; exact h ((Mach.reachable_iff _ _).2 (by omega))
      exact .inr (.inr ⟨.memBoundsWrite, if_pos hge, if_neg h⟩)
  case ldMemLoad x =>
    by_cases h : s.mach.reachable x.toNat = true
    · have hlt := (Mach.reachable_iff _ _).1 h
      have hf : faultOf (.ldMemLoad x) s = none := if_neg (by omega)
      exact .inr (.inl ⟨by simp [reachesTail, returnsEarly, hf], _, false, false, false, if_pos h⟩)
    · have hge : s.mach.i.toNat + x.toNat ≥ 4095 := by
        by_contra hlt; exact h ((Mach.reachable_iff _ _).2 (by omega))
      exact .inr (.inr ⟨.memBoundsRead, if_pos hge, if_neg h⟩)
  all_goals exact .inr (.inl ⟨rfl, _, _, _, _, rfl⟩)

/-- ALL A STEP CAN DO, on the inputs the host presents: idle, when the core is halted or faulted; else fetch a word and answer what its
instruction answers. -/
theorem step_cases {s t : State} (h : step s = .next t) :
    (¬ Running s ∧ t = s.present.idle) ∨
    (Running s ∧ ∃ w, s.mach.fetch = some w ∧ exec (decode w) s.present = .next t) := by
  by_cases hr : Running s
  · have hw := Mach.fetch_eq hr.2
    rw [step_running hr hw] at h
    exact .inr ⟨hr, _, hw, h⟩
  · rw [step_idle hr] at h
    cases h
    exact .inl ⟨hr, rfl⟩

end Sys2Proof.Machine
end

