-- ==== Sys2Proof/Laws/Frames.lean ====
section
/-! SUPPORT. The frames of Safety.lean for the ends of a handler: what a `Tail` or an `Early` leaves unchanged follows from what the
handler's Machine leaves unchanged (R104 to R106). -/

namespace Sys2Proof.Safety

open Sys2Proof.Machine

theorem tail_eq (s : State) (m : Mach) (skip changed keyClear : Bool) :
    s.tail m skip changed keyClear = .next (State.afterTail s m skip changed keyClear) := rfl

theorem done_eq (s : State) (m : Mach) : s.done m = .next (State.afterTail s m false false false) := rfl

@[simp] theorem afterTail_getV (s : State) (m : Mach) (k c q : Bool) (r : Nibble) :
    (State.afterTail s m k c q).mach.getV r = m.getV r := by simp [State.afterTail]

@[simp] theorem afterTail_getStack (s : State) (m : Mach) (k c q : Bool) (j : Nibble) :
    (State.afterTail s m k c q).mach.getStack j = m.getStack j := by simp [State.afterTail]

@[simp] theorem afterTail_i (s : State) (m : Mach) (k c q : Bool) : (State.afterTail s m k c q).mach.i = m.i := by simp [State.afterTail]
@[simp] theorem afterTail_sp (s : State) (m : Mach) (k c q : Bool) : (State.afterTail s m k c q).mach.sp = m.sp := by simp [State.afterTail]
@[simp] theorem afterTail_stack (s : State) (m : Mach) (k c q : Bool) : (State.afterTail s m k c q).mach.stack = m.stack := by
  simp [State.afterTail]
@[simp] theorem afterTail_mem (s : State) (m : Mach) (k c q : Bool) : (State.afterTail s m k c q).mach.mem = m.mem := by simp [State.afterTail]
@[simp] theorem afterTail_screen (s : State) (m : Mach) (k c q : Bool) : (State.afterTail s m k c q).mach.screen = m.screen := by
  simp [State.afterTail]
@[simp] theorem afterTail_fault (s : State) (m : Mach) (k c q : Bool) : (State.afterTail s m k c q).mach.fault = m.fault := by
  simp [State.afterTail]
@[simp] theorem afterTail_pc (s : State) (m : Mach) (k c q : Bool) :
    (State.afterTail s m k c q).mach.pc = m.pc + if k then 4 else 2 := by simp [State.afterTail]
@[simp] theorem afterTail_dt (s : State) (m : Mach) (k c q : Bool) :
    (State.afterTail s m k c q).mach.dt = if s.inp.tick then satdec m.dt else m.dt := by simp [State.afterTail]
@[simp] theorem afterTail_st (s : State) (m : Mach) (k c q : Bool) :
    (State.afterTail s m k c q).mach.st = if s.inp.tick then satdec m.st else m.st := by simp [State.afterTail]
@[simp] theorem afterTail_inp (s : State) (m : Mach) (k c q : Bool) :
    (State.afterTail s m k c q).inp = ⟨slotAfter q s.inp.key, s.inp.tick, s.inp.rnd⟩ := rfl
@[simp] theorem afterTail_out (s : State) (m : Mach) (k c q : Bool) :
    (State.afterTail s m k c q).out = ⟨q, c, s.inp.tick⟩ := rfl
@[simp] theorem afterTail_script (s : State) (m : Mach) (k c q : Bool) : (State.afterTail s m k c q).script = s.script := rfl
@[simp] theorem afterTail_draws (s : State) (m : Mach) (k c q : Bool) : (State.afterTail s m k c q).draws = s.draws := rfl

/-- A tail that clears no key leaves FAULT, the key slot and the host's side, if the handler leaves FAULT. -/
theorem sameFaultKeyHost_tail {s : State} {m : Mach} (k c : Bool) (hf : m.fault = s.mach.fault) :
    SameFaultKeyHost s (State.afterTail s m k c false) := by
  simp [SameFaultKeyHost, hf, slotAfter]

/-- A tail without a tick leaves the timers, if the handler does. -/
theorem sameTimers_tail {s : State} {m : Mach} (k c q : Bool) (hd : m.dt = s.mach.dt) (hs : m.st = s.mach.st) :
    SameTimersUnlessTick s (State.afterTail s m k c q) := by
  intro ht; simp [ht, hd, hs]

/-- The frame of a tail after a handler that wrote registers alone. -/
theorem onlyRegisters_tail {s : State} {m : Mach} {d : List Nibble} (k c : Bool) (hm : m = { s.mach with v := m.v })
    (hr : ∀ r, r ∉ d → m.getV r = s.mach.getV r) : OnlyRegisters d s (State.afterTail s m k c false) := by
  refine ⟨fun r h => by rw [afterTail_getV]; exact hr r h, ?_, ?_, ⟨?_, ?_⟩, ?_, ?_, ?_⟩
  · rw [afterTail_i, hm]
  · intro a; rw [afterTail_mem, hm]
  · rw [afterTail_sp, hm]
  · intro j; rw [afterTail_getStack, hm]; rfl
  · intro x y; rw [afterTail_screen, hm]
  · exact sameTimers_tail _ _ _ (by rw [hm]) (by rw [hm])
  · exact sameFaultKeyHost_tail _ _ (by rw [hm])

/-- The frame of the write of one register. -/
theorem onlyRegisters_setV (s : State) (x : Nibble) (b : Byte) (k c : Bool) :
    OnlyRegisters [x] s (State.afterTail s (s.mach.setV x b) k c false) :=
  onlyRegisters_tail k c rfl (fun r h => Mach.getV_setV_ne _ _ (by simpa using h))

/-- The frame of the write of a result and its flag. -/
theorem onlyRegisters_setResult (s : State) (x : Nibble) (r : Byte × Bool) (k c : Bool) :
    OnlyRegisters [x, 0xF] s (State.afterTail s (s.mach.setResult x r) k c false) := by
  refine onlyRegisters_tail k c rfl (fun q h => ?_)
  have hx : q ≠ x := fun e => h (e ▸ List.mem_cons_self)
  have hf : q ≠ vf := fun e => h (by rw [e]; exact List.mem_cons_of_mem _ List.mem_cons_self)
  rw [Mach.getV_setResult, if_neg hf, if_neg hx]

/-- The frame of a handler that writes nothing. -/
theorem onlyRegisters_nothing (s : State) (k c : Bool) : OnlyRegisters [] s (State.afterTail s s.mach k c false) :=
  onlyRegisters_tail k c rfl (fun _ _ => rfl)

/-- The frame of a write of I. -/
theorem onlyIndex_setI (s : State) (a : Word) (k c : Bool) : OnlyIndex s (State.afterTail s (s.mach.setI a) k c false) := by
  refine ⟨fun r _ => by simp, fun _ => by simp, ⟨by simp, fun j => by simp⟩, fun _ _ => by simp, ?_, ?_⟩
  · exact sameTimers_tail _ _ _ rfl rfl
  · exact sameFaultKeyHost_tail _ _ rfl

/-- The frame of a store of `n` bytes from I on. -/
theorem onlyBytes_storeAtI (s : State) (bs : List Byte) (k c : Bool) :
    OnlyBytes s.mach.i.toNat bs.length s (State.afterTail s (s.mach.storeAtI bs) k c false) := by
  refine ⟨fun r _ => by simp, by simp, fun b hb => ?_, ⟨by simp, fun j => by simp⟩, fun _ _ => by simp, ?_, ?_⟩
  · rw [afterTail_mem, Mach.storeAtI_mem, Memory.read_writeBytes, if_neg (by omega)]
  · exact sameTimers_tail _ _ _ rfl rfl
  · exact sameFaultKeyHost_tail _ _ rfl

/-- A stored byte, where the whole run of bytes is inside memory. -/
theorem read_storeAtI (s : State) (bs : List Byte) (k c q : Bool) {j : Nat} (hj : j < bs.length)
    (hin : s.mach.i.toNat + j < 4095) :
    Memory.read (State.afterTail s (s.mach.storeAtI bs) k c q).mach.mem (s.mach.i.toNat + j) = bs[j]? := by
  rw [afterTail_mem, Mach.storeAtI_mem, Memory.read_writeBytes, if_pos ⟨by omega, by omega, hin⟩]
  congr 1; omega

/-- The frame of a key instruction that wrote registers alone. -/
theorem onlyKeyAnd_tail {s : State} {m : Mach} {d : List Nibble} (k c q : Bool) (hm : m = { s.mach with v := m.v })
    (hr : ∀ r, r ∉ d → m.getV r = s.mach.getV r) : OnlyKeyAnd d s (State.afterTail s m k c q) := by
  refine ⟨fun r h => by rw [afterTail_getV]; exact hr r h, ?_, ?_, ⟨?_, ?_⟩, ?_, ?_, ?_, rfl, rfl, rfl, rfl⟩
  · rw [afterTail_i, hm]
  · intro a; rw [afterTail_mem, hm]
  · rw [afterTail_sp, hm]
  · intro j; rw [afterTail_getStack, hm]; rfl
  · intro x y; rw [afterTail_screen, hm]
  · exact sameTimers_tail _ _ _ (by rw [hm]) (by rw [hm])
  · rw [afterTail_fault, hm]

end Sys2Proof.Safety
end

