-- ==== Sys2Proof/Laws/Exec.lean ====
section
/-! SUPPORT. Every instruction in one equation: the Machine its handler leaves, and what its tail is told (R104). A rule over all
instructions is proved from `exec_next` by cases on the instruction, and no proof unfolds `exec`. -/

namespace Sys2Proof.Safety

open Sys2Proof.Machine

/-- The Machine a handler leaves, before the tail. -/
def handlerMach (i : Instr) (s : State) : Mach :=
  match i with
  | .cls => s.mach.setScreen Screen.blank
  | .ret => s.mach.popPc
  | .jp nnn => s.mach.setPc (addrOf nnn)
  | .call nnn => (s.mach.push (s.mach.pc + 2)).setPc (addrOf nnn)
  | .ldImm x kk => s.mach.setV x kk
  | .addImm x kk => s.mach.setV x (s.mach.getV x + kk)
  | .ldReg x y => s.mach.setV x (s.mach.getV y)
  | .orReg x y => s.mach.setV x (s.mach.getV x ||| s.mach.getV y)
  | .andReg x y => s.mach.setV x (s.mach.getV x &&& s.mach.getV y)
  | .xorReg x y => s.mach.setV x (s.mach.getV x ^^^ s.mach.getV y)
  | .addReg x y => s.mach.setResult x (addWithCarry (s.mach.getV x) (s.mach.getV y))
  | .sub x y => s.mach.setResult x (subNotBorrow (s.mach.getV x) (s.mach.getV y))
  | .shr x y => s.mach.setResult x (shiftRight (s.mach.getV y))
  | .subn x y => s.mach.setResult x (subNotBorrow (s.mach.getV y) (s.mach.getV x))
  | .shl x y => s.mach.setResult x (shiftLeft (s.mach.getV y))
  | .ldI nnn => s.mach.setI (addrOf nnn)
  | .jpV0 nnn => s.mach.setPc (s.mach.addrPlusV0 nnn)
  | .rnd x kk => s.mach.setV x (kk &&& s.inp.rnd)
  | .drw x y n => (s.mach.setScreen (s.mach.drawn x y n).1).setV vf (flagByte (s.mach.drawn x y n).2)
  | .ldVxDt x => s.mach.setV x s.mach.dt
  | .ldK x => match s.inp.key with
    | some k => s.mach.setV x (keyByte k)
    | none => s.mach
  | .ldDtVx x => s.mach.setDt (s.mach.getV x)
  | .ldStVx x => s.mach.setSt (s.mach.getV x)
  | .addI x => s.mach.setI (s.mach.iPlus x)
  | .ldF x => s.mach.setI (s.mach.glyphAddr x)
  | .ldB x => s.mach.storeAtI (decimalDigits (s.mach.getV x))
  | .ldMemStore x => s.mach.storeAtI (s.mach.regsUpTo x)
  | .ldMemLoad x => s.mach.loadRegs x
  | .nop0 _ | .seImm _ _ | .sneImm _ _ | .seReg _ _ _ | .sneReg _ _ _ | .nop8 _ _ _ | .skp _ | .sknp _ | .nopE _ _
  | .nopF _ _ => s.mach

/-- The skip flag a handler gives its tail. -/
def skips (i : Instr) (s : State) : Bool :=
  match i with
  | .seImm x kk => s.mach.getV x == kk
  | .sneImm x kk => s.mach.getV x != kk
  | .seReg x y _ => s.mach.getV x == s.mach.getV y
  | .sneReg x y _ => s.mach.getV x != s.mach.getV y
  | .skp x => s.keyMatches x
  | .sknp x => !s.keyMatches x
  | _ => false

/-- The display-changed flag a handler gives its tail. -/
def changes : Instr → Bool
  | .cls | .drw _ _ _ => true
  | _ => false

/-- KEY_CLEAR of an instruction that reaches its tail. -/
def clearsKey (i : Instr) (s : State) : Bool :=
  match i with
  | .skp x => s.keyMatches x
  | .sknp _ => s.inp.key.isNone
  | .ldK _ => true
  | _ => false

/-- Every instruction takes its fault, or returns early, or reaches its tail. -/
theorem exec_eq (i : Instr) (s : State) :
    exec i s = match faultOf i s with
      | some c => s.raiseFault c i
      | none =>
        if returnsEarly i s then s.early (handlerMach i s)
        else s.tail (handlerMach i s) (skips i s) (changes i) (clearsKey i s) := by
  cases i
  case ret =>
    by_cases h : s.mach.sp = 0
    · simp [exec, execRet, faultOf, h]
    · have hn : s.mach.sp.toNat ≠ 0 := fun e => h (BitVec.eq_of_toNat_eq e)
      simp only [exec, execRet, faultOf, if_neg h, if_neg hn]; rfl
  case call nnn =>
    by_cases h : s.mach.sp = Config.stackDepth
    · have hp : s.mach.sp.toNat = 15 := by rw [h]; rfl
      simp only [exec, execCall, faultOf, if_pos h, if_pos hp]
    · have hn : s.mach.sp.toNat ≠ 15 := fun e => h (BitVec.eq_of_toNat_eq e)
      simp only [exec, execCall, faultOf, if_neg h, if_neg hn]; rfl
  case ldK x =>
    cases h : s.inp.key <;>
      simp [exec, execLdK, State.early, State.tail, faultOf, returnsEarly, handlerMach, skips, changes, clearsKey, h]
  case ldB x =>
    by_cases h : s.mach.reachable 2 = true
    · have hn : ¬ s.mach.i.toNat + 2 ≥ 4095 := by have := (Mach.reachable_iff _ _).1 h; omega
      simp only [exec, execLdB, faultOf, if_pos h, if_neg hn]; rfl
    · have hp : s.mach.i.toNat + 2 ≥ 4095 := by by_contra hlt; exact h ((Mach.reachable_iff _ _).2 (by omega))
      simp only [exec, execLdB, faultOf, if_neg h, if_pos hp]
  case ldMemStore x =>
    by_cases h : s.mach.reachable x.toNat = true
    · have hn : ¬ s.mach.i.toNat + x.toNat ≥ 4095 := by have := (Mach.reachable_iff _ _).1 h; omega
      simp only [exec, execLdMemStore, faultOf, if_pos h, if_neg hn]; rfl
    · have hp : s.mach.i.toNat + x.toNat ≥ 4095 := by
        by_contra hlt; exact h ((Mach.reachable_iff _ _).2 (by omega))
      simp only [exec, execLdMemStore, faultOf, if_neg h, if_pos hp]
  case ldMemLoad x =>
    by_cases h : s.mach.reachable x.toNat = true
    · have hn : ¬ s.mach.i.toNat + x.toNat ≥ 4095 := by have := (Mach.reachable_iff _ _).1 h; omega
      simp only [exec, execLdMemLoad, faultOf, if_pos h, if_neg hn]; rfl
    · have hp : s.mach.i.toNat + x.toNat ≥ 4095 := by
        by_contra hlt; exact h ((Mach.reachable_iff _ _).2 (by omega))
      simp only [exec, execLdMemLoad, faultOf, if_neg h, if_pos hp]
  all_goals rfl

/-- ALL AN INSTRUCTION CAN DO: the one state it answers, in each of the three cases of R104. -/
theorem exec_next {i : Instr} {s t : State} (h : exec i s = .next t) :
    (∃ c, faultOf i s = some c ∧ reachesTail i s = false ∧ t = State.afterFault s c i) ∨
    (faultOf i s = none ∧ returnsEarly i s = true ∧ reachesTail i s = false ∧ t = State.afterEarly s (handlerMach i s)) ∨
    (faultOf i s = none ∧ returnsEarly i s = false ∧ reachesTail i s = true ∧
      t = State.afterTail s (handlerMach i s) (skips i s) (changes i) (clearsKey i s)) := by
  rw [exec_eq] at h
  cases hf : faultOf i s with
  | some c =>
    rw [hf] at h; cases h
    exact .inl ⟨c, rfl, by simp [reachesTail, hf], rfl⟩
  | none =>
    simp only [hf] at h
    cases he : returnsEarly i s with
    | true =>
      rw [he] at h; cases h
      exact .inr (.inl ⟨rfl, rfl, by simp [reachesTail, he], rfl⟩)
    | false =>
      rw [he] at h; cases h
      exact .inr (.inr ⟨rfl, rfl, by simp [reachesTail, he, hf], rfl⟩)

end Sys2Proof.Safety
end

