-- ==== Sys2Proof/Laws/PerInstr.lean ====
section
/-! SUPPORT. A statement about every instruction as syntax: the group nibble its word carries (R71, R73, R79), one lemma a
constructor, over the lemmas that say what op a word of each format has. -/

namespace Sys2Proof.Laws.TopNibble

/-- The group of an instruction: the `op` column of the dispatch table of R73. -/
def group : Instr → Nibble
  | .cls | .ret | .nop0 _ => 0x0
  | .jp _ => 0x1
  | .call _ => 0x2
  | .seImm _ _ => 0x3
  | .sneImm _ _ => 0x4
  | .seReg _ _ _ => 0x5
  | .ldImm _ _ => 0x6
  | .addImm _ _ => 0x7
  | .ldReg _ _ | .orReg _ _ | .andReg _ _ | .xorReg _ _ | .addReg _ _
  | .sub _ _ | .shr _ _ | .subn _ _ | .shl _ _ | .nop8 _ _ _ => 0x8
  | .sneReg _ _ _ => 0x9
  | .ldI _ => 0xA
  | .jpV0 _ => 0xB
  | .rnd _ _ => 0xC
  | .drw _ _ _ => 0xD
  | .skp _ | .sknp _ | .nopE _ _ => 0xE
  | .ldVxDt _ | .ldK _ | .ldDtVx _ | .ldStVx _ | .addI _
  | .ldF _ | .ldB _ | .ldMemStore _ | .ldMemLoad _ | .nopF _ _ => 0xF

/-- The word of an instruction carries its group in bits 15:12. -/
def Statement (i : Instr) : Prop := fieldOp (encode i) = group i

theorem cls : Statement (.cls) := fieldOp_formatA _ _
theorem ret : Statement (.ret) := fieldOp_formatA _ _
theorem nop0 (nnn : Imm12) : Statement (.nop0 nnn) := fieldOp_formatA _ _
theorem jp (nnn : Imm12) : Statement (.jp nnn) := fieldOp_formatA _ _
theorem call (nnn : Imm12) : Statement (.call nnn) := fieldOp_formatA _ _
theorem seImm (x : Nibble) (kk : Byte) : Statement (.seImm x kk) := fieldOp_formatXK _ _ _
theorem sneImm (x : Nibble) (kk : Byte) : Statement (.sneImm x kk) := fieldOp_formatXK _ _ _
theorem seReg (x : Nibble) (y : Nibble) (n : Nibble) : Statement (.seReg x y n) := fieldOp_formatXY _ _ _ _
theorem ldImm (x : Nibble) (kk : Byte) : Statement (.ldImm x kk) := fieldOp_formatXK _ _ _
theorem addImm (x : Nibble) (kk : Byte) : Statement (.addImm x kk) := fieldOp_formatXK _ _ _
theorem ldReg (x : Nibble) (y : Nibble) : Statement (.ldReg x y) := fieldOp_formatXY _ _ _ _
theorem orReg (x : Nibble) (y : Nibble) : Statement (.orReg x y) := fieldOp_formatXY _ _ _ _
theorem andReg (x : Nibble) (y : Nibble) : Statement (.andReg x y) := fieldOp_formatXY _ _ _ _
theorem xorReg (x : Nibble) (y : Nibble) : Statement (.xorReg x y) := fieldOp_formatXY _ _ _ _
theorem addReg (x : Nibble) (y : Nibble) : Statement (.addReg x y) := fieldOp_formatXY _ _ _ _
theorem sub (x : Nibble) (y : Nibble) : Statement (.sub x y) := fieldOp_formatXY _ _ _ _
theorem shr (x : Nibble) (y : Nibble) : Statement (.shr x y) := fieldOp_formatXY _ _ _ _
theorem subn (x : Nibble) (y : Nibble) : Statement (.subn x y) := fieldOp_formatXY _ _ _ _
theorem shl (x : Nibble) (y : Nibble) : Statement (.shl x y) := fieldOp_formatXY _ _ _ _
theorem nop8 (x : Nibble) (y : Nibble) (n : Nibble) : Statement (.nop8 x y n) := fieldOp_formatXY _ _ _ _
theorem sneReg (x : Nibble) (y : Nibble) (n : Nibble) : Statement (.sneReg x y n) := fieldOp_formatXY _ _ _ _
theorem ldI (nnn : Imm12) : Statement (.ldI nnn) := fieldOp_formatA _ _
theorem jpV0 (nnn : Imm12) : Statement (.jpV0 nnn) := fieldOp_formatA _ _
theorem rnd (x : Nibble) (kk : Byte) : Statement (.rnd x kk) := fieldOp_formatXK _ _ _
theorem drw (x : Nibble) (y : Nibble) (n : Nibble) : Statement (.drw x y n) := fieldOp_formatXY _ _ _ _
theorem skp (x : Nibble) : Statement (.skp x) := fieldOp_formatXK _ _ _
theorem sknp (x : Nibble) : Statement (.sknp x) := fieldOp_formatXK _ _ _
theorem nopE (x : Nibble) (kk : Byte) : Statement (.nopE x kk) := fieldOp_formatXK _ _ _
theorem ldVxDt (x : Nibble) : Statement (.ldVxDt x) := fieldOp_formatXK _ _ _
theorem ldK (x : Nibble) : Statement (.ldK x) := fieldOp_formatXK _ _ _
theorem ldDtVx (x : Nibble) : Statement (.ldDtVx x) := fieldOp_formatXK _ _ _
theorem ldStVx (x : Nibble) : Statement (.ldStVx x) := fieldOp_formatXK _ _ _
theorem addI (x : Nibble) : Statement (.addI x) := fieldOp_formatXK _ _ _
theorem ldF (x : Nibble) : Statement (.ldF x) := fieldOp_formatXK _ _ _
theorem ldB (x : Nibble) : Statement (.ldB x) := fieldOp_formatXK _ _ _
theorem ldMemStore (x : Nibble) : Statement (.ldMemStore x) := fieldOp_formatXK _ _ _
theorem ldMemLoad (x : Nibble) : Statement (.ldMemLoad x) := fieldOp_formatXK _ _ _
theorem nopF (x : Nibble) (kk : Byte) : Statement (.nopF x kk) := fieldOp_formatXK _ _ _

end Sys2Proof.Laws.TopNibble
end

