-- ==== Sys2Proof/Laws/Run.lean ====
section
/-! SUPPORT. Runs of the machine, one step at a time (R100). -/

namespace Sys2Proof.Machine

/-- On any machine, a run whose first step answers a next state goes on from it. -/
theorem core_run_succ (M : Host.Core) (n : Nat) {s u : M.State} (h : M.step s = .next u) :
    M.run (n + 1) s = M.run n u := by
  rw [Host.Core.run, h]

/-- A run of no step. -/
theorem run_zero (s : State) : Sys2Proof.core.run 0 s = .next s := rfl

/-- A run whose first step answers a next state goes on from it. -/
theorem run_succ {s u : State} (n : Nat) (h : step s = .next u) :
    Sys2Proof.core.run (n + 1) s = Sys2Proof.core.run n u :=
  core_run_succ Sys2Proof.core n h

end Sys2Proof.Machine
end

