-- ==== Sys2Proof/Tests/Slice0.lean ====
section
/-! SUPPORT. Tests: words written from the encodings of R71 to R79, single steps on the spec's vectors (95_test_vectors.md, named in
each docstring), and for every obligation with hypotheses a state and operands that meet them. -/

namespace Sys2Proof.Tests

open Sys2Proof.Machine Sys2Proof.Safety

/-! ### A small state, and one step of one word -/

/-- A running state with a PC, some general registers, I, and the inputs of its next step, which the host has scripted. -/
def start (pc : Word) (v : List (Nibble × Byte)) (i : Word) (inp : StepInputs) : State :=
  { State.reset with
    mach := { v.foldl (fun m p => m.setV p.1 p.2) Mach.reset with pc := pc, i := i }
    inp := inp
    script := [⟨inp.key.elim .release .press, inp.tick, inp.rnd⟩] }

/-- At 0x200 with no key, no tick and RND = 0, as 95_test_vectors.md section 0 has it. -/
def plain (v : List (Nibble × Byte)) : State := start 0x200 v 0x300 ⟨none, false, 0⟩

/-- The state with bytes stored from an address on. -/
def holding (s : State) (a : Nat) (bs : List Byte) : State :=
  { s with mach := { s.mach with mem := Memory.writeBytes s.mach.mem a bs } }

/-- The state with SP and one slot of the stack set. -/
def stacked (s : State) (sp : Nibble) (a : Word) : State :=
  { s with mach := { s.mach with sp := sp, stack := s.mach.stack.set sp.toNat a sp.isLt } }

/-- The state with DT and ST set. -/
def timed (s : State) (dt st : Byte) : State := { s with mach := { s.mach with dt := dt, st := st } }

/-- The state with a fault recorded: the underflow of a return at PC. -/
def faultedAt (s : State) : State := { s with mach := { s.mach with fault := ⟨.stackUnderflow, s.mach.pc, 0x00EE⟩ } }

/-- The next state of an outcome, or the state given where there is none. -/
def nextOr (s : State) : Host.Outcome State Fault Refusal → State
  | .next t => t
  | .fault _ => s
  | .refused _ => s

/-- What one step of a word, fetched at PC, leaves. -/
def after (s : State) (w : Nat) : State := nextOr s (step (s.withFetchWord 16 w))

/-- Whether an outcome is a next state of which `P` holds. -/
abbrev NextWith (P : State → Prop) (o : Host.Outcome State Fault Refusal) : Prop := ∃ t, o = .next t ∧ P t

/-! ### WellFormed: each check refuses an ill-formed term -/

theorem test_wellFormed_group0 : (Instr.nop0 0x0E0).wellFormed = false ∧ (Instr.nop0 0x0EE).wellFormed = false := by decide
theorem test_wellFormed_group8 : ∀ n ∈ definedKeys8, (Instr.nop8 1 2 n).wellFormed = false := by decide
theorem test_wellFormed_groupE : (Instr.nopE 1 0x9E).wellFormed = false ∧ (Instr.nopE 1 0xA1).wellFormed = false := by decide
theorem test_wellFormed_groupF : ∀ kk ∈ definedKeysF, (Instr.nopF 1 kk).wellFormed = false := by decide

/-! ### Decode: every constructor from a word written out field by field -/

theorem test_decode_group0 :
    decode 0b0000_0000_1110_0000 = .cls ∧ decode 0b0000_0000_1110_1110 = .ret ∧
    decode 0b0000_0001_0010_0011 = .nop0 0x123 ∧ decode 0x01E0 = .nop0 0x1E0 := by decide
theorem test_decode_jp : decode 0b0001_1010_1011_1100 = .jp 0xABC := by decide
theorem test_decode_call : decode 0b0010_0011_0000_0000 = .call 0x300 := by decide
theorem test_decode_seImm : decode 0b0011_0011_0100_0010 = .seImm 0x3 0x42 := by decide
theorem test_decode_sneImm : decode 0b0100_0011_0100_0010 = .sneImm 0x3 0x42 := by decide
theorem test_decode_seReg : decode 0b0101_0001_0010_0000 = .seReg 0x1 0x2 0x0 ∧ decode 0x512F = .seReg 1 2 0xF := by decide
theorem test_decode_ldImm : decode 0b0110_1010_0010_1111 = .ldImm 0xA 0x2F := by decide
theorem test_decode_addImm : decode 0b0111_0011_1111_1111 = .addImm 0x3 0xFF := by decide
theorem test_decode_group8_logic :
    decode 0b1000_0001_0010_0000 = .ldReg 1 2 ∧ decode 0b1000_0001_0010_0001 = .orReg 1 2 ∧
    decode 0b1000_0001_0010_0010 = .andReg 1 2 ∧ decode 0b1000_0001_0010_0011 = .xorReg 1 2 := by decide
theorem test_decode_group8_arithmetic :
    decode 0b1000_0001_0010_0100 = .addReg 1 2 ∧ decode 0b1000_0001_0010_0101 = .sub 1 2 ∧
    decode 0b1000_0001_0010_0110 = .shr 1 2 ∧ decode 0b1000_0001_0010_0111 = .subn 1 2 ∧
    decode 0b1000_0001_0010_1110 = .shl 1 2 := by decide
theorem test_decode_group8_undefined :
    decode 0x8128 = .nop8 1 2 0x8 ∧ decode 0x812D = .nop8 1 2 0xD ∧ decode 0x812F = .nop8 1 2 0xF := by decide
theorem test_decode_sneReg : decode 0b1001_0001_0010_0000 = .sneReg 1 2 0 ∧ decode 0x912F = .sneReg 1 2 0xF := by decide
theorem test_decode_ldI : decode 0b1010_0010_1111_0000 = .ldI 0x2F0 := by decide
theorem test_decode_jpV0 : decode 0b1011_0011_0000_0000 = .jpV0 0x300 := by decide
theorem test_decode_rnd : decode 0b1100_0011_0011_1100 = .rnd 0x3 0x3C := by decide
theorem test_decode_drw : decode 0b1101_0001_0010_0101 = .drw 1 2 5 := by decide
theorem test_decode_groupE :
    decode 0b1110_0010_1001_1110 = .skp 2 ∧ decode 0b1110_0010_1010_0001 = .sknp 2 ∧
    decode 0b1110_0001_1111_1111 = .nopE 1 0xFF := by decide
theorem test_decode_groupF_registers :
    decode 0b1111_0101_0000_0111 = .ldVxDt 5 ∧ decode 0b1111_0101_0000_1010 = .ldK 5 ∧
    decode 0b1111_0101_0001_0101 = .ldDtVx 5 ∧ decode 0b1111_0101_0001_1000 = .ldStVx 5 := by decide
theorem test_decode_groupF_memory :
    decode 0b1111_0101_0001_1110 = .addI 5 ∧ decode 0b1111_0101_0010_1001 = .ldF 5 ∧
    decode 0b1111_0101_0011_0011 = .ldB 5 ∧ decode 0b1111_0101_0101_0101 = .ldMemStore 5 ∧
    decode 0b1111_0101_0110_0101 = .ldMemLoad 5 ∧ decode 0b1111_0000_1001_0000 = .nopF 0 0x90 := by decide
theorem test_decodeTableWord : decodeTableWord 16 0x8124 = some (.addReg 1 2) ∧ decodeTableWord 32 0x8124 = none := by decide

/-! ### Steps: register loads and ALU (vectors S1 to S3 and A1 to A32) -/

/-- A1. -/
theorem test_ldImm : (after (plain []) 0x6A2F).mach.getV 0xA = 0x2F := by decide
/-- S1: the wrap sets no flag. -/
theorem test_addImm_wraps : (after (plain [(3, 0xFF), (0xF, 1)]) 0x7302).mach.getV 3 = 0x01 ∧
    (after (plain [(3, 0xFF), (0xF, 1)]) 0x7302).mach.getV 0xF = 1 := by decide
/-- S1: VF as the destination. -/
theorem test_addImm_vf : (after (plain [(0xF, 0xFF)]) 0x7F02).mach.getV 0xF = 0x01 := by decide
/-- A5. -/
theorem test_ldReg : (after (plain [(1, 0x11), (2, 0x99)]) 0x8120).mach.getV 1 = 0x99 := by decide
/-- A6: no VF write. -/
theorem test_orReg : (after (plain [(1, 0x0F), (2, 0xF0), (0xF, 0xAA)]) 0x8121).mach.getV 1 = 0xFF ∧
    (after (plain [(1, 0x0F), (2, 0xF0), (0xF, 0xAA)]) 0x8121).mach.getV 0xF = 0xAA := by decide
/-- A9: VF as the destination. -/
theorem test_orReg_vf : (after (plain [(0xF, 0x0F), (1, 0xF0)]) 0x8F11).mach.getV 0xF = 0xFF := by decide
/-- A7. -/
theorem test_andReg : (after (plain [(1, 0x3C), (2, 0x0F)]) 0x8122).mach.getV 1 = 0x0C := by decide
/-- A7. -/
theorem test_xorReg : (after (plain [(1, 0x3C), (2, 0x0F)]) 0x8123).mach.getV 1 = 0x33 := by decide
/-- A12: the sum wraps and carries. -/
theorem test_addReg_carry : (after (plain [(1, 0x80), (2, 0x80)]) 0x8124).mach.getV 1 = 0x00 ∧
    (after (plain [(1, 0x80), (2, 0x80)]) 0x8124).mach.getV 0xF = 1 := by decide
/-- A14 and A15: VF as the destination keeps the carry; VF as the source is read before it is written. -/
theorem test_addReg_vf : (after (plain [(0xF, 0xFF), (1, 0x01)]) 0x8F14).mach.getV 0xF = 1 ∧
    (after (plain [(1, 0x01), (0xF, 0x02)]) 0x81F4).mach.getV 1 = 0x03 := by decide
/-- S2: equal operands do not borrow. -/
theorem test_sub_equal : (after (plain [(1, 6), (2, 6)]) 0x8125).mach.getV 1 = 0 ∧
    (after (plain [(1, 6), (2, 6)]) 0x8125).mach.getV 0xF = 1 := by decide
/-- S2: a borrow. -/
theorem test_sub_borrow : (after (plain [(1, 5), (2, 6)]) 0x8125).mach.getV 1 = 0xFF ∧
    (after (plain [(1, 5), (2, 6)]) 0x8125).mach.getV 0xF = 0 := by decide
/-- S3: Vy is shifted, not Vx. -/
theorem test_shr_reads_vy : (after (plain [(1, 0), (2, 5)]) 0x8126).mach.getV 1 = 2 ∧
    (after (plain [(1, 0), (2, 5)]) 0x8126).mach.getV 0xF = 1 := by decide
/-- A22: with x = F the flag stays. -/
theorem test_shr_vf : (after (plain [(2, 2)]) 0x8F26).mach.getV 0xF = 0 := by decide
/-- A24: Vy − Vx borrows. -/
theorem test_subn_borrow : (after (plain [(1, 0x30), (2, 0x10)]) 0x8127).mach.getV 1 = 0xE0 ∧
    (after (plain [(1, 0x30), (2, 0x10)]) 0x8127).mach.getV 0xF = 0 := by decide
/-- A25: equal operands do not borrow. -/
theorem test_subn_equal : (after (plain [(1, 0x44), (2, 0x44)]) 0x8127).mach.getV 0xF = 1 := by decide
/-- A26: the evicted bit 7. -/
theorem test_shl : (after (plain [(2, 0x81)]) 0x812E).mach.getV 1 = 2 ∧
    (after (plain [(2, 0x81)]) 0x812E).mach.getV 0xF = 1 := by decide
/-- A28: with x = F the flag stays. -/
theorem test_shl_vf : (after (plain [(2, 0x40)]) 0x8F2E).mach.getV 0xF = 0 := by decide
/-- A31: the random byte is masked. -/
theorem test_rnd : (after (start 0x200 [] 0 ⟨none, false, 0xA5⟩) 0xC30F).mach.getV 3 = 0x05 := by decide

/-! ### Steps: control flow (vectors B1 to B20, T1 to T9) -/

/-- B1. -/
theorem test_ret : (after (stacked (start 0x316 [] 0 ⟨none, false, 0⟩) 2 0x30A) 0x00EE).mach.pc = 0x30A ∧
    (after (stacked (start 0x316 [] 0 ⟨none, false, 0⟩) 2 0x30A) 0x00EE).mach.sp = 1 := by decide
/-- B2: the underflow. -/
theorem test_ret_underflow : (after (plain []) 0x00EE).mach.fault = ⟨.stackUnderflow, 0x200, 0x00EE⟩ ∧
    (after (plain []) 0x00EE).mach.pc = 0x200 := by decide
/-- T9: a jump returns early, so a due tick stays. -/
theorem test_jp_early : (after (timed (start 0x200 [] 0 ⟨none, true, 0⟩) 5 0) 0x1200).mach.dt = 5 ∧
    (after (timed (start 0x200 [] 0 ⟨none, true, 0⟩) 5 0) 0x1200).inp.tick = true := by decide
/-- B5. -/
theorem test_call : (after (stacked (start 0x240 [] 0 ⟨none, false, 0⟩) 14 0) 0x2300).mach.getStack 15 = 0x242 ∧
    (after (stacked (start 0x240 [] 0 ⟨none, false, 0⟩) 14 0) 0x2300).mach.pc = 0x300 := by decide
/-- B6: the overflow. -/
theorem test_call_overflow : (after (stacked (start 0x240 [] 0 ⟨none, false, 0⟩) 15 7) 0x2300).mach.fault =
    ⟨.stackOverflow, 0x240, 0x2300⟩ ∧
    (after (stacked (start 0x240 [] 0 ⟨none, false, 0⟩) 15 7) 0x2300).mach.getStack 15 = 7 := by decide
/-- B9: the target is not reduced to 12 bits. -/
theorem test_jpV0 : (after (plain [(0, 0xFF)]) 0xBFFF).mach.pc = 0x10FE := by decide
/-- B11 and B12. -/
theorem test_seImm : (after (plain [(3, 0x42)]) 0x3342).mach.pc = 0x204 ∧
    (after (plain [(3, 0x41)]) 0x3342).mach.pc = 0x202 := by decide
/-- B14. -/
theorem test_sneImm : (after (plain [(3, 0x42)]) 0x4342).mach.pc = 0x202 ∧
    (after (plain [(3, 0x42)]) 0x4300).mach.pc = 0x204 := by decide
/-- B15: the low nibble is ignored. -/
theorem test_seReg : (after (plain [(1, 7), (2, 7)]) 0x5120).mach.pc = 0x204 ∧
    (after (plain [(1, 7), (2, 7)]) 0x512F).mach.pc = 0x204 := by decide
/-- B17 and B18. -/
theorem test_sneReg : (after (plain [(1, 7), (2, 8)]) 0x912F).mach.pc = 0x204 ∧
    (after (plain [(1, 7)]) 0x9110).mach.pc = 0x202 := by decide
/-- T3 and T4. -/
theorem test_nop0 : (after (plain []) 0x0000).mach.pc = 0x202 ∧ (after (plain []) 0x0123).mach.pc = 0x202 := by decide
/-- A29. -/
theorem test_nop8 : (after (plain [(1, 5), (2, 6)]) 0x812F).mach.getV 1 = 5 ∧
    (after (plain [(1, 5), (2, 6)]) 0x8128).mach.pc = 0x202 := by decide
/-- T5: the held key is not consumed. -/
theorem test_nopE : (after (start 0x200 [] 0 ⟨some 3, false, 0⟩) 0xE1FF).inp.key = some 3 ∧
    (after (start 0x200 [] 0 ⟨some 3, false, 0⟩) 0xE1FF).mach.pc = 0x202 := by decide
/-- T6. -/
theorem test_nopF : (after (plain [(1, 9)]) 0xF1FF).mach.i = 0x300 ∧ (after (plain [(1, 9)]) 0xF1FF).mach.pc = 0x202 := by decide
/-- T7: the last word that is fetched straddles 0xFFD and 0xFFE. -/
theorem test_fetch_last : (after (start 0xFFD [] 0 ⟨none, false, 0⟩) 0x6A42).mach.getV 0xA = 0x42 ∧
    (after (start 0xFFD [] 0 ⟨none, false, 0⟩) 0x6A42).mach.pc = 0xFFF := by decide
/-- S8: a halted core does nothing. -/
theorem test_halted : (after (timed (start 0xFFE [] 0 ⟨some 3, true, 0xAA⟩) 5 0) 0x6A42).mach.dt = 5 ∧
    (after (timed (start 0xFFE [] 0 ⟨some 3, true, 0xAA⟩) 5 0) 0x6A42).out = ⟨false, false, false⟩ := by decide

/-! ### Steps: display (vectors S5, G1 to G11) -/

/-- G9 on a screen with a pixel on. -/
theorem test_cls :
    (after { plain [] with mach := (plain []).mach.setScreen (Screen.toggle Screen.blank 3 4) } 0x00E0).mach.screen =
      Screen.blank ∧ (after (plain []) 0x00E0).out.changed = true := by decide
/-- G2: the start coordinates are reduced modulo 64 and 32. -/
theorem test_drw_modulo : (after (holding (plain [(1, 70), (2, 33)]) 0x300 [0x80]) 0xD121).mach.screen =
    Screen.toggle Screen.blank 6 1 := by decide
/-- S5: drawn again at the same place, the pixels go off and VF is 1. -/
theorem test_drw_collision :
    (after { holding (plain []) 0x300 [0x80] with
        mach := (holding (plain []) 0x300 [0x80]).mach.setScreen (Screen.toggle Screen.blank 0 0) } 0xD011).mach.screen =
      Screen.blank ∧
    (after { holding (plain []) 0x300 [0x80] with
        mach := (holding (plain []) 0x300 [0x80]).mach.setScreen (Screen.toggle Screen.blank 0 0) } 0xD011).mach.getV 0xF = 1 := by
  decide
/-- The table of render offsets: pixel (1, 1) is bytes 260 to 263. -/
theorem test_render : ((Screen.render (Screen.toggle Screen.blank 1 1)).drop 256).take 12 =
    [0x00, 0xF0, 0x00, 0xFF, 0xFF, 0xFF, 0xFF, 0xFF, 0x00, 0xF0, 0x00, 0xFF] := by decide

/-! ### Steps: keys and timers (vectors K1 to K13, M1 to M7) -/

/-- K1: the match skips and consumes the key. -/
theorem test_skp : (after (start 0x300 [(2, 5)] 0 ⟨some 5, false, 0⟩) 0xE29E).mach.pc = 0x304 ∧
    (after (start 0x300 [(2, 5)] 0 ⟨some 5, false, 0⟩) 0xE29E).inp.key = none := by decide
/-- K4: a register above 0F never matches. -/
theorem test_skp_high : (after (start 0x300 [(2, 0x15)] 0 ⟨some 5, false, 0⟩) 0xE29E).mach.pc = 0x302 := by decide
/-- K5 and K7. -/
theorem test_sknp : (after (start 0x300 [(1, 3)] 0 ⟨none, false, 0⟩) 0xE1A1).out = ⟨true, false, false⟩ ∧
    (after (start 0x300 [(1, 3)] 0 ⟨some 4, false, 0⟩) 0xE1A1).mach.pc = 0x304 := by decide
/-- K6. -/
theorem test_sknp_held : (after (start 0x300 [(1, 3)] 0 ⟨some 3, false, 0⟩) 0xE1A1).mach.pc = 0x302 ∧
    (after (start 0x300 [(1, 3)] 0 ⟨some 3, false, 0⟩) 0xE1A1).inp.key = some 3 := by decide
/-- K10: the wait has no tick. -/
theorem test_ldK_waits : (after (timed (start 0x300 [] 0 ⟨none, true, 0⟩) 5 0) 0xF30A).mach.pc = 0x300 ∧
    (after (timed (start 0x300 [] 0 ⟨none, true, 0⟩) 5 0) 0xF30A).mach.dt = 5 := by decide
/-- K12. -/
theorem test_ldK_takes : (after (timed (start 0x300 [] 0 ⟨some 0xB, true, 0⟩) 5 0) 0xF30A).mach.getV 3 = 0x0B ∧
    (after (timed (start 0x300 [] 0 ⟨some 0xB, true, 0⟩) 5 0) 0xF30A).out = ⟨true, false, true⟩ := by decide
/-- M2: DT is read before the tick. -/
theorem test_ldVxDt : (after (timed (start 0x200 [] 0 ⟨none, true, 0⟩) 0x10 0) 0xF507).mach.getV 5 = 0x10 ∧
    (after (timed (start 0x200 [] 0 ⟨none, true, 0⟩) 0x10 0) 0xF507).mach.dt = 0x0F := by decide
/-- M4 and M5: DT is written before the tick, and floored at 0. -/
theorem test_ldDtVx : (after (start 0x200 [(4, 0x3C)] 0 ⟨none, true, 0⟩) 0xF415).mach.dt = 0x3B ∧
    (after (start 0x200 [(4, 0)] 0 ⟨none, true, 0⟩) 0xF415).mach.dt = 0 := by decide
/-- M6. -/
theorem test_ldStVx : (after (start 0x200 [(4, 5)] 0 ⟨none, true, 0⟩) 0xF418).mach.st = 4 := by decide

/-! ### Steps: index register and memory (vectors X1 to X18) -/

/-- X2. -/
theorem test_ldI : (after (plain []) 0xAFFF).mach.i = 0x0FFF := by decide
/-- X4 and X5: 16 bits, no flag. -/
theorem test_addI : (after (start 0x200 [(0, 1)] 0xFFFF ⟨none, false, 0⟩) 0xF01E).mach.i = 0 ∧
    (after (start 0x200 [(0, 1)] 0x0FFF ⟨none, false, 0⟩) 0xF01E).mach.i = 0x1000 := by decide
/-- X6 and X8: Vx is not masked. -/
theorem test_ldF : (after (plain [(0, 0x0F)]) 0xF029).mach.i = 0x4B ∧
    (after (plain [(0, 0xFF)]) 0xF029).mach.i = 0x4FB := by decide
/-- X9: the last address that fits. -/
theorem test_ldB : (after (start 0x200 [(0, 0xFF)] 0xFFC ⟨none, false, 0⟩) 0xF033).mach.mem =
    [(0x200, 0xF0), (0x201, 0x33), (0xFFC, 2), (0xFFD, 5), (0xFFE, 5)] := by decide
/-- X10: the bounds fault. -/
theorem test_ldB_bounds : (after (start 0x200 [(0, 0xFF)] 0xFFD ⟨none, false, 0⟩) 0xF033).mach.fault =
    ⟨.memBoundsWrite, 0x200, 0xF033⟩ := by decide
/-- X14. -/
theorem test_ldMemStore : (after (plain [(0, 0x11), (1, 0x22), (2, 0x33)]) 0xF155).mach.mem =
    [(0x200, 0xF1), (0x201, 0x55), (0x300, 0x11), (0x301, 0x22)] := by decide
/-- X13: nothing is written before the fault. -/
theorem test_ldMemStore_bounds : (after (start 0x200 [(0, 1)] 0xFFE ⟨none, false, 0⟩) 0xF155).mach.mem =
    [(0x200, 0xF1), (0x201, 0x55)] := by decide
/-- X17. -/
theorem test_ldMemLoad : ((after (holding (plain [(3, 0x99)]) 0x300 [1, 5, 7]) 0xF265).mach.v.toList.take 4) =
    [1, 5, 7, 0x99] := by decide
/-- X15 and X18: the bounds fault. -/
theorem test_ldMemLoad_bounds : (after (start 0x200 [] 0xFF0 ⟨none, false, 0⟩) 0xFF65).mach.fault =
    ⟨.memBoundsRead, 0x200, 0xFF65⟩ ∧
    (after (start 0x200 [] 0x1000 ⟨none, false, 0⟩) 0xF065).mach.fault = ⟨.memBoundsRead, 0x200, 0xF065⟩ := by decide

/-! ### The sizes of R7, load and faults (vectors F2, F3, L3, L4) -/

/-- R7: the sizes of the font and of the render buffer, four bytes for each of 64 × 32 pixels. -/
theorem test_sizes : Config.font.length = Config.fontSize ∧ Config.renderBytes = 8192 ∧
    Config.renderBytes = Config.screenW * Config.screenH * Config.colorOn.length ∧
    Config.colorOff.length = Config.colorOn.length := by decide
/-- R240: the first step after a load sees the key, the tick and the random byte the host presents (K12's inputs, then A31's). -/
theorem test_first_step :
    (after { State.load [] with script := [⟨.press 0xB, true, 0⟩] } 0xF30A).mach.getV 3 = 0x0B ∧
    (after { State.load [] with script := [⟨.press 0xB, true, 0⟩] } 0xF30A).out = ⟨true, false, true⟩ ∧
    (after { State.load [] with script := [⟨.release, false, 0xA5⟩] } 0xC30F).mach.getV 3 = 0x05 := by decide
/-- Every word of the table runs as the first instruction after reset, whatever the host presents: here the wait for a key. -/
theorem test_first_ldK : NextWith (fun _ => True) (step (State.reset.withFetchWord 16 0xF30A)) := ⟨_, rfl, trivial⟩

/-- R260 and L3: the ROM follows the font. -/
theorem test_load : Memory.read (State.load [0x12, 0x00]).mach.mem 0x200 = some 0x12 ∧
    Memory.read (State.load [0x12, 0x00]).mach.mem 0x04B = some 0xF0 := by decide
/-- F1: a faulted core stays as it is. -/
theorem test_faulted : (after (faultedAt (plain [])) 0x6A2F).mach.getV 0xA = 0 ∧
    (after (faultedAt (plain [])) 0x6A2F).mach.pc = 0x200 := by decide

/-! ### Witnesses: for every obligation with hypotheses, and for each of its clauses, a state and operands that meet them -/

/-- EncodeThenDecodeGivesBack. -/
theorem test_witness_wellFormed : (Instr.drw 0xF 0xF 0xF).wellFormed = true ∧ (Instr.nop0 0xFFF).wellFormed = true ∧
    (Instr.nop8 0 0 8).wellFormed = true ∧ (Instr.nopE 0 0x9F).wellFormed = true ∧ (Instr.nopF 0 0).wellFormed = true := by decide

/-- StepRunsTheDecodedInstruction, at reset and at the last PC that is fetched from. -/
theorem test_witness_step_runs : Running State.reset ∧ Running ((start 0xFFD [] 0 ⟨none, false, 0⟩).withFetchWord 16 0x6A42) :=
  ⟨⟨by decide, by decide⟩, by decide, by decide⟩

/-- HostPresentsTheNextInputs: nothing scripted; each action of a scripted host; a tick due and not acknowledged, and the others. -/
theorem test_witness_present : State.reset.script = [] ∧
    (∀ k ∈ [KeyAction.keep, .release, .press 7],
      { State.reset with script := [⟨k, true, 9⟩] }.script = (⟨k, true, 9⟩ : HostInputs) :: []) ∧
    ((start 0 [] 0 ⟨none, true, 0⟩).inp.tick = true ∧ (start 0 [] 0 ⟨none, true, 0⟩).out.tickAck = false) ∧
    (State.reset.inp.tick = false) ∧
    ({ State.reset with out := ⟨false, false, true⟩ }.out.tickAck = true) := by decide

/-- UnacknowledgedTickStaysDue: a jump to itself with a tick due, then whatever the host presents. -/
theorem test_witness_tick_stays :
    NextWith (fun t => t.inp.tick = true ∧ t.out.tickAck = false ∧ NextWith (fun _ => True) (step t))
      (step ((start 0x200 [] 0 ⟨none, true, 0⟩).withFetchWord 16 0x1200)) :=
  ⟨_, rfl, by decide, by decide, _, rfl, trivial⟩

/-- HaltedCoreNeverChanges, at the boundary and at the greatest PC. -/
theorem test_witness_halted :
    0xFFE ≤ (start 0xFFE [] 0 ⟨none, true, 0⟩).mach.pc.toNat ∧ 0xFFE ≤ (start 0x10FE [] 0 ⟨none, true, 0⟩).mach.pc.toNat ∧ 0 < 1 :=
  ⟨by decide, by decide, by decide⟩

/-- FaultedCoreNeverChanges, below and at the halt boundary (F3). -/
theorem test_witness_faulted :
    (faultedAt (start 0x200 [] 0 ⟨none, true, 0⟩)).mach.fault.cause ≠ .noFault ∧
    (faultedAt (start 0xFFE [] 0 ⟨none, true, 0⟩)).mach.fault.cause ≠ .noFault := ⟨by decide, by decide⟩

/-- OnlyNamedRegistersChange: a register that 8xy4 does not write, and one above x for Fx65. -/
theorem test_witness_registers :
    NextWith (fun _ => (3 : Nibble) ∉ destinations (.addReg 1 2)) (exec (.addReg 1 2) (plain [])) ∧
    NextWith (fun _ => (3 : Nibble) ∉ destinations (.ldMemLoad 2)) (exec (.ldMemLoad 2) (plain [])) :=
  ⟨⟨_, rfl, by decide⟩, ⟨_, rfl, by decide⟩⟩

/-- OnlyStoresWriteMemory: the last byte each of the two stores writes at the end of memory. -/
theorem test_witness_stores :
    (let s := start 0x200 [(0, 0xFF)] 0xFFC ⟨none, false, 0⟩
     NextWith (fun t => Memory.read t.mach.mem 0xFFE ≠ Memory.read s.mach.mem 0xFFE) (exec (.ldB 0) s)) ∧
    (let s := start 0x200 [(1, 0xFF)] 0xFFD ⟨none, false, 0⟩
     NextWith (fun t => Memory.read t.mach.mem 0xFFE ≠ Memory.read s.mach.mem 0xFFE) (exec (.ldMemStore 1) s)) :=
  ⟨⟨_, rfl, by decide⟩, ⟨_, rfl, by decide⟩⟩

/-- OnlyCallAndReturnTouchTheStack: SP changed by a call and by a return; the last slot changed by a call. -/
theorem test_witness_stack :
    (let s := stacked (plain []) 14 0
     NextWith (fun t => t.mach.sp ≠ s.mach.sp ∧ t.mach.getStack 15 ≠ s.mach.getStack 15) (exec (.call 0x300) s)) ∧
    (let s := stacked (plain []) 1 0x30A
     NextWith (fun t => t.mach.sp ≠ s.mach.sp) (exec .ret s)) := ⟨⟨_, rfl, by decide⟩, ⟨_, rfl, by decide⟩⟩

/-- ChangedExactlyOnClearAndDraw: both sides, for a clear and a draw; a halted core reports nothing. -/
theorem test_witness_changed :
    (∀ w ∈ [0x00E0, 0xD120], ((plain []).withFetchWord 16 w).mach.fetch = some (tableWord 16 w) ∧
      (after (plain []) w).out.changed = true) ∧
    Running (plain []) ∧ decode 0x00E0 = .cls ∧ decode 0xD120 = .drw 1 2 0 ∧
    (after (start 0xFFE [] 0 ⟨none, false, 0⟩) 0x00E0).out.changed = false :=
  ⟨by decide, ⟨by decide, by decide⟩, by decide, by decide, by decide⟩

/-- NoReportedChangeNoRenderedChange, EveryStepKeepsTheInvariant: a step that reports no change. -/
theorem test_witness_unchanged :
    NextWith (fun t => t.out.changed = false) (step ((plain []).withFetchWord 16 0x6A2F)) := ⟨_, rfl, by decide⟩

/-- TimersTickOnceInTheTail: its three clauses (M4, M3, M7), and the wait of Fx0A (K10). -/
theorem test_witness_timers :
    (let s := start 0x200 [(4, 0x3C)] 0 ⟨none, true, 0⟩
     NextWith (fun _ => reachesTail (.ldDtVx 4) s = true ∧ s.inp.tick = true) (exec (.ldDtVx 4) s)) ∧
    (let s := plain [(4, 0x3C)]
     NextWith (fun _ => reachesTail (.ldDtVx 4) s = true ∧ s.inp.tick = false) (exec (.ldDtVx 4) s)) ∧
    (let s := start 0x200 [] 0 ⟨none, true, 0⟩
     NextWith (fun _ => reachesTail (.jp 0x200) s = false ∧ reachesTail (.ldK 3) s = false) (exec (.jp 0x200) s)) :=
  ⟨⟨_, rfl, by decide⟩, ⟨_, rfl, by decide⟩, ⟨_, rfl, by decide⟩⟩

/-- KeySlotClearedOnlyByKeyInstructions: KEY_CLEAR from each of the three instructions, and no KEY_CLEAR. -/
theorem test_witness_key_clear :
    NextWith (fun t => t.out.keyClear = true) (exec (.skp 2) (start 0x300 [(2, 5)] 0 ⟨some 5, false, 0⟩)) ∧
    NextWith (fun t => t.out.keyClear = true) (exec (.sknp 1) (start 0x300 [(1, 3)] 0 ⟨none, false, 0⟩)) ∧
    NextWith (fun t => t.out.keyClear = true) (exec (.ldK 3) (start 0x300 [] 0 ⟨some 0xB, false, 0⟩)) ∧
    NextWith (fun t => t.out.keyClear = false) (exec (.skp 2) (start 0x300 [(2, 0x15)] 0 ⟨some 5, false, 0⟩)) :=
  ⟨⟨_, rfl, by decide⟩, ⟨_, rfl, by decide⟩, ⟨_, rfl, by decide⟩, ⟨_, rfl, by decide⟩⟩

/-- OnlyRndReadsTheRandomByte, OnlyKeyInstructionsSeeTheKey: a key instruction for the one, a random load for the other. -/
theorem test_witness_inputs :
    ((∀ x kk, Instr.skp 2 ≠ .rnd x kk) ∧ NextWith (fun _ => True) (exec (.skp 2) (plain []))) ∧
    ((∀ x, Instr.rnd 1 2 ≠ .skp x) ∧ (∀ x, Instr.rnd 1 2 ≠ .sknp x) ∧ (∀ x, Instr.rnd 1 2 ≠ .ldK x) ∧
      NextWith (fun _ => True) (exec (.rnd 1 2) (plain []))) :=
  ⟨⟨nofun, _, rfl, trivial⟩, nofun, nofun, nofun, _, rfl, trivial⟩

/-- ProgramCounterMoves: its clauses, the limits of SP among them. -/
theorem test_witness_pc :
    NextWith (fun _ => (faultOf (.call 0x300) (stacked (plain []) 15 0)).isSome = true)
      (exec (.call 0x300) (stacked (plain []) 15 0)) ∧
    NextWith (fun _ => (plain []).inp.key = none) (exec (.ldK 3) (plain [])) ∧
    NextWith (fun _ => reachesTail (.skp 2) (plain []) = true ∧ isSkip (.skp 2) = true) (exec (.skp 2) (plain [])) ∧
    NextWith (fun _ => reachesTail (.ldB 2) (plain []) = true ∧ isSkip (.ldB 2) = false) (exec (.ldB 2) (plain [])) ∧
    NextWith (fun _ => True) (exec (.jp 0xFFF) (plain [])) ∧
    NextWith (fun _ => (stacked (plain []) 14 0).mach.sp.toNat ≠ 15) (exec (.call 0x300) (stacked (plain []) 14 0)) ∧
    NextWith (fun _ => True) (exec (.jpV0 0xFFF) (plain [(0, 0xFF)])) ∧
    NextWith (fun _ => (stacked (plain []) 1 0).mach.sp.toNat ≠ 0) (exec .ret (stacked (plain []) 1 0)) :=
  ⟨⟨_, rfl, by decide⟩, ⟨_, rfl, by decide⟩, ⟨_, rfl, by decide⟩, ⟨_, rfl, by decide⟩, ⟨_, rfl, trivial⟩,
    ⟨_, rfl, by decide⟩, ⟨_, rfl, trivial⟩, ⟨_, rfl, by decide⟩⟩

/-- FaultsExactlyWhereNamed: the five faults, each at its limit, and no fault one short of it. -/
theorem test_witness_faults :
    (faultOf (.call 0x300) (stacked (plain []) 15 0) = some .stackOverflow ∧ faultOf .ret (plain []) = some .stackUnderflow ∧
      faultOf (.ldMemLoad 1) (start 0x200 [] 0xFFE ⟨none, false, 0⟩) = some .memBoundsRead ∧
      faultOf (.ldMemStore 1) (start 0x200 [] 0xFFE ⟨none, false, 0⟩) = some .memBoundsWrite ∧
      faultOf (.ldB 1) (start 0x200 [] 0xFFD ⟨none, false, 0⟩) = some .memBoundsWrite) ∧
    (faultOf (.call 0x300) (stacked (plain []) 14 0) = none ∧ faultOf .ret (stacked (plain []) 1 0) = none ∧
      faultOf (.ldMemLoad 0) (start 0x200 [] 0xFFE ⟨none, false, 0⟩) = none ∧
      faultOf (.ldMemStore 0) (start 0x200 [] 0xFFE ⟨none, false, 0⟩) = none ∧
      faultOf (.ldB 1) (start 0x200 [] 0xFFC ⟨none, false, 0⟩) = none) := by decide

/-- FaultRecordsTheFetchedWord: a return on an empty stack (B2). -/
theorem test_witness_fault_recorded :
    Running ((plain []).withFetchWord 16 0x00EE) ∧ ((plain []).withFetchWord 16 0x00EE).mach.fetch = some 0x00EE ∧
    NextWith (fun t => t.mach.fault.cause ≠ .noFault) (step ((plain []).withFetchWord 16 0x00EE)) :=
  ⟨⟨by decide, by decide⟩, by decide, ⟨_, rfl, by decide⟩⟩

/-- EveryStepKeepsTheInvariant: a running state of the invariant that is not reset, and a faulted one. -/
theorem test_witness_invariant :
    MachineInv ((plain [(1, 2)]).withFetchWord 16 0x6A2F) ∧
    MachineInv (after (plain []) 0x00EE) := by
  refine ⟨⟨?_, ?_, ?_, ?_, ?_, ?_⟩, ⟨?_, ?_, ?_, ?_, ?_, ?_⟩⟩ <;> decide

/-- CanonicalMemoriesAreEqualData: a memory written twice and the same memory written out. -/
theorem test_witness_canonical :
    let m := Memory.write (Memory.write [] 0x300 2) 0x300 1
    Memory.wf m ∧ Memory.wf [(0x300, 1)] ∧ ∀ a, Memory.read m a = Memory.read [(0x300, 1)] a :=
  ⟨by decide, by decide, fun _ => rfl⟩

/-- AddSetsCarry, SubtractSetsNotBorrow, ReverseSubtractSetsNotBorrow, ShiftsTakeVy: a destination that is not VF, and each branch of
the flag, at its boundary. -/
theorem test_witness_flags : (1 : Nibble) ≠ 0xF ∧
    (let s := plain [(1, 0x80), (2, 0x80)]; (s.mach.getV 1).toNat + (s.mach.getV 2).toNat > 255) ∧
    (let s := plain [(1, 0x80), (2, 0x7F)]; ¬ (s.mach.getV 1).toNat + (s.mach.getV 2).toNat > 255) ∧
    (let s := plain [(1, 5), (2, 6)]; (s.mach.getV 1).toNat < (s.mach.getV 2).toNat) ∧
    (let s := plain [(1, 6), (2, 6)]; ¬ (s.mach.getV 1).toNat < (s.mach.getV 2).toNat) := by decide

/-- SkipOnImmediate, SkipOnRegister: both branches of each. -/
theorem test_witness_skips : (plain [(3, 0x42)]).mach.getV 3 = 0x42 ∧ (plain [(3, 0x41)]).mach.getV 3 ≠ 0x42 ∧
    (plain [(1, 7), (2, 7)]).mach.getV 1 = (plain [(1, 7), (2, 7)]).mach.getV 2 ∧
    (plain [(1, 7), (2, 8)]).mach.getV 1 ≠ (plain [(1, 7), (2, 8)]).mach.getV 2 := by decide

/-- CallPushesTheReturnAddress and ReturnPopsTheReturnAddress, at the limits of SP. -/
theorem test_witness_sp : (stacked (plain []) 14 0).mach.sp ≠ 15 ∧ (stacked (plain []) 1 0).mach.sp ≠ 0 := by decide

/-- ReturnUndoesCall: the state right after a call with SP = 14, stepped on by one no-op. -/
theorem test_witness_return_undoes :
    let s := stacked (plain []) 14 0
    s.mach.sp ≠ 15 ∧ NextWith (fun t => NextWith (fun u => u.mach.sp = t.mach.sp ∧
      ∀ j : Nibble, 1 ≤ j.toNat → j.toNat ≤ t.mach.sp.toNat → u.mach.getStack j = t.mach.getStack j) (exec (.nop0 0) t))
      (exec (.call 0x300) s) :=
  ⟨by decide, _, rfl, _, rfl, rfl, fun _ _ _ => rfl⟩

/-- DrawXorsTheSprite: at the last pixel, a set bit of the sprite over an on pixel. -/
theorem test_witness_collision :
    let s := { holding (plain [(1, 63), (2, 31)]) 0x300 [0x80] with
      mach := (holding (plain [(1, 63), (2, 31)]) 0x300 [0x80]).mach.setScreen (Screen.toggle Screen.blank 63 31) }
    ∃ px py, px < 64 ∧ py < 32 ∧ SpriteBit s 1 2 1 px py ∧ Screen.pixel s.mach.screen px py = true :=
  ⟨63, 31, by decide, by decide, ⟨0, 0, 0x80, by decide, by decide, by decide, by decide, by decide, by decide⟩, by decide⟩

/-- DrawXorsTheSprite: a sprite with no row, which covers no pixel and so collides with none (G4). -/
theorem test_witness_no_collision :
    (∀ px py, ¬ SpriteBit (plain []) 1 2 0 px py) ∧
    ¬ ∃ px py, px < 64 ∧ py < 32 ∧ SpriteBit (plain []) 1 2 0 px py ∧ Screen.pixel (plain []).mach.screen px py = true :=
  ⟨fun _ _ ⟨_, _, _, h, _⟩ => Nat.not_lt_zero _ h, fun ⟨_, _, _, _, ⟨_, _, _, h, _⟩, _⟩ => Nat.not_lt_zero _ h⟩

/-- RenderShowsEveryPixel: the last pixel, in both colours. -/
theorem test_witness_render : 63 < 64 ∧ 31 < 32 ∧ Screen.pixel (Screen.toggle Screen.blank 63 31) 63 31 = true ∧
    Screen.pixel Screen.blank 63 31 = false := by decide

/-- SkipIfKeyHeld, SkipIfKeyNotHeld: the held key that matches, a register above 0F, and no key. -/
theorem test_witness_key_held :
    (∃ k, (start 0x300 [(2, 0xF)] 0 ⟨some 0xF, false, 0⟩).inp.key = some k ∧
      k.toNat = ((start 0x300 [(2, 0xF)] 0 ⟨some 0xF, false, 0⟩).mach.getV 2).toNat) ∧
    (¬ ∃ k, (start 0x300 [(2, 0x1F)] 0 ⟨some 0xF, false, 0⟩).inp.key = some k ∧
      k.toNat = ((start 0x300 [(2, 0x1F)] 0 ⟨some 0xF, false, 0⟩).mach.getV 2).toNat) ∧
    (¬ ∃ k, (plain []).inp.key = some k ∧ k.toNat = ((plain []).mach.getV 2).toNat) := by decide

/-- KeyWaitAndTake: with and without a key. -/
theorem test_witness_key_wait : (plain []).inp.key = none ∧ (start 0x300 [] 0 ⟨some 0xB, false, 0⟩).inp.key = some 0xB := by
  decide

/-- DecimalDigitsStored, RegistersStored, RegistersLoaded: the last I that fits, and a register within and above the range. -/
theorem test_witness_bounds :
    (start 0x200 [] 0xFFC ⟨none, false, 0⟩).mach.i.toNat + 2 < 4095 ∧
    (start 0x200 [] 0xFEF ⟨none, false, 0⟩).mach.i.toNat + (0xF : Nibble).toNat < 4095 ∧
    (0xF : Nibble).toNat ≤ (0xF : Nibble).toNat ∧
    (start 0x200 [] 0xFFE ⟨none, false, 0⟩).mach.i.toNat + (0 : Nibble).toNat < 4095 ∧
    (0 : Nibble).toNat < (1 : Nibble).toNat := by decide

/-- StoreLoadRoundTrip: the state right after the store, its registers then cleared, at the end of memory. -/
theorem test_witness_round_trip :
    let s := start 0x200 [(0, 0x12), (1, 0x34)] 0xFFD ⟨none, false, 0⟩
    s.mach.i.toNat + (1 : Nibble).toNat < 4095 ∧ NextWith (fun t =>
      let u : State := { t with mach := (t.mach.setV 0 0).setV 1 0 }
      u.mach.i = s.mach.i ∧ ∀ a, s.mach.i.toNat ≤ a → a ≤ s.mach.i.toNat + (1 : Nibble).toNat →
        Memory.read u.mach.mem a = Memory.read t.mach.mem a) (exec (.ldMemStore 1) s) :=
  ⟨by decide, _, rfl, rfl, fun _ _ _ => rfl⟩

/-- ResetLeaves and LoadPlacesTheRom: addresses at the ends of their ranges, and a ROM longer than one byte. -/
theorem test_witness_load : 4094 < 4095 ∧ 80 ≤ 80 ∧ 1 < [(0x12 : Byte), 0x00].length ∧ 1 < 3583 ∧ 0x1FF < 0x200 ∧
    0x200 + [(0x12 : Byte), 0x00].length ≤ 0x202 := by decide

end Sys2Proof.Tests
end

/-! SUPPORT. The step cycle (40_step_cycle.md): a core that does not run never changes, which instructions report CHANGED, and the
codes that do nothing. -/

namespace Sys2Proof.Proofs

open Sys2Proof.Machine Sys2Proof.Safety

/-! ### A core that does not run -/

/-- Whether a core runs depends on its Machine alone. -/
theorem running_congr {s t : State} (h : t.mach = s.mach) : Running t ↔ Running s := by
  unfold Running; rw [h]

/-- A halted or faulted core keeps its Machine however often it is stepped, and reports nothing after any step (R101, R111). -/
theorem run_of_not_running (n : Nat) {s : State} (h : ¬ Running s) :
    ∃ t : State, Sys2Proof.core.run n s = .next t ∧ t.mach = s.mach ∧ (0 < n → t.out = ⟨false, false, false⟩) := by
  induction n generalizing s with
  | zero => exact ⟨s, run_zero s, rfl, fun h0 => absurd h0 (Nat.lt_irrefl 0)⟩
  | succ n ih =>
    have hmach : s.present.idle.mach = s.mach := by simp
    obtain ⟨t, hrun, htm, hout⟩ := ih (s := s.present.idle) (by rwa [running_congr hmach])
    refine ⟨t, (run_succ n (step_idle h)).trans hrun, htm.trans hmach, fun _ => ?_⟩
    cases n with
    | zero =>
      cases (run_zero s.present.idle).symm.trans hrun
      exact State.idle_out s.present
    | succ n => exact hout n.succ_pos

/-- Settles O10: PC at or above 0xFFE keeps a core from running, and an idle step keeps PC. -/
theorem haltedCoreNeverChanges : Obligations.HaltedCoreNeverChanges :=
  fun n _ hpc => run_of_not_running n fun hrun => Nat.not_lt.2 hpc hrun.2

/-! ### The report of CHANGED -/

/-- The instructions whose tail is told of a change (R110). -/
theorem changes_iff (i : Instr) : changes i = true ↔ i = .cls ∨ ∃ x y n, i = .drw x y n := by
  cases i <;> simp [changes]

/-- 00E0 and Dxyn neither return early nor fault (R104, R230). -/
theorem reachesTail_of_changes {i : Instr} (s : State) (h : changes i = true) : reachesTail i s = true := by
  obtain rfl | ⟨x, y, n, rfl⟩ := (changes_iff i).1 h
  · rfl
  · rfl

/-- What an instruction reports on CHANGED does not depend on the state (R110). -/
theorem exec_changed {i : Instr} {s t : State} (h : exec i s = .next t) : t.out.changed = changes i := by
  have quiet (htail : reachesTail i s = false) : changes i = false :=
    Bool.eq_false_iff.2 fun hc => by simp [reachesTail_of_changes s hc] at htail
  obtain ⟨c, -, htail, rfl⟩ | ⟨-, -, htail, rfl⟩ | ⟨-, -, -, rfl⟩ := exec_next h
  · rw [State.afterFault_out, quiet htail]
  · rw [State.afterEarly_out, quiet htail]
  · rw [afterTail_out]

/-- Settles O16: an idle step reports nothing, and a running one what the instruction it fetched reports. -/
theorem changedExactlyOnClearAndDraw : Obligations.ChangedExactlyOnClearAndDraw := by
  intro s t h
  obtain ⟨hrun, rfl⟩ | ⟨hrun, w, hw, hexec⟩ := step_cases h
  · simp [hrun]
  · rw [exec_changed hexec, changes_iff]
    constructor
    · exact fun hi => ⟨hrun, w, hw, hi⟩
    · rintro ⟨-, w', hw', hi⟩
      cases hw.symm.trans hw'
      exact hi

/-! ### The undefined codes -/

/-- `Tail(false, false)` on the Machine as it was has no effect but the PC advance and the tick (R106, R107). -/
theorem done_mach_does_nothing (s : State) :
    ∃ t, s.done s.mach = .next t ∧ OnlyRegisters [] s t ∧ AdvancesQuietly s t := by
  refine ⟨_, done_eq s s.mach, onlyRegisters_nothing s false false, ?_, ?_⟩
  · simp
  · simp

/-- Settles O56: each of the four meanings is `Tail(false, false)` of the Machine it was given (R109). -/
theorem undefinedCodesDoNothing : Obligations.UndefinedCodesDoNothing :=
  fun _ _ _ _ _ s =>
    ⟨done_mach_does_nothing s, done_mach_does_nothing s, done_mach_does_nothing s, done_mach_does_nothing s⟩

end Sys2Proof.Proofs


/-! SUPPORT. Control flow (41_control_flow.md): what a jump and a skip write, and what they leave unchanged. -/

namespace Sys2Proof.Proofs

open Sys2Proof.Machine Sys2Proof.Safety

/-! ### Skips -/

/-- `Tail(condition, false)` with nothing written moves PC by what the condition says and does nothing else (R106, R107). -/
theorem skipIf_next (s : State) (condition : Bool) {d : Word} (hd : (if condition then 4 else 2) = d) :
    ∃ t, s.skipIf condition = .next t ∧ t.mach.pc = s.mach.pc + d ∧ t.out.changed = false ∧ OnlyRegisters [] s t := by
  refine ⟨_, tail_eq s s.mach condition false false, ?_, ?_, onlyRegisters_nothing s condition false⟩
  · rw [afterTail_pc, hd]
  · rw [afterTail_out]

/-- Settles O36: both are skips, 3xkk on Vx = kk and 4xkk on its negation. -/
theorem skipOnImmediate : Obligations.SkipOnImmediate := by
  intro x kk s
  constructor
  · exact skipIf_next s (s.mach.getV x == kk) (by simp)
  · exact skipIf_next s (s.mach.getV x != kk) (by simp)

/-! ### Jumps -/

/-- The frame of an early return after a handler that wrote PC, SP and the stack alone (R105). -/
theorem onlyPcAndStack_early {s : State} {m : Mach}
    (hm : m = { s.mach with pc := m.pc, sp := m.sp, stack := m.stack }) : OnlyPcAndStack s (s.afterEarly m) := by
  rw [hm]
  exact ⟨fun _ _ => rfl, rfl, fun _ => rfl, fun _ _ => rfl, rfl, rfl, ⟨rfl, rfl, rfl, rfl, rfl⟩, rfl⟩

/-- An early return after a write of PC leaves everything else, the timers with a tick due and the stack too (R105). -/
theorem early_setPc_next (s : State) {a : Word} {n : Nat} (ha : a.toNat = n) :
    ∃ t, s.early (s.mach.setPc a) = .next t ∧ t.mach.pc.toNat = n ∧ OnlyPcAndStack s t ∧ SameStack s t :=
  ⟨_, rfl, ha, onlyPcAndStack_early rfl, rfl, fun _ => rfl⟩

/-- The target of the computed jump does not wrap: an address immediate and a byte add to at most 0x10FE (R126). -/
theorem addrPlusV0_toNat (m : Mach) (nnn : Imm12) : (m.addrPlusV0 nnn).toNat = nnn.toNat + (m.getV 0).toNat := by
  have hnnn := nnn.isLt
  have hv0 := (m.getV 0).isLt
  rw [Mach.addrPlusV0, BitVec.toNat_add, addrOf_toNat, wordOf_toNat]
  omega

/-- Settles O38: 1nnn returns early with the widened immediate in PC. -/
theorem jumpSetsPc : Obligations.JumpSetsPc :=
  fun nnn s => early_setPc_next s (addrOf_toNat nnn)

/-- Settles O39: Bnnn returns early with a 16-bit sum in PC, which is the sum of the numbers. -/
theorem computedJumpSetsPc : Obligations.ComputedJumpSetsPc :=
  fun nnn s => early_setPc_next s (addrPlusV0_toNat s.mach nnn)

end Sys2Proof.Proofs


/-! SUPPORT. Register loads and ALU (42_alu.md): each result and flag as a number, and what the handlers leave in the registers. -/

namespace Sys2Proof.Proofs

open Sys2Proof.Machine Sys2Proof.Safety

/-! ### Results and flags as numbers -/

/-- The sum is narrowed to a byte (R147). -/
theorem addWithCarry_result (a b : Byte) : (addWithCarry a b).1.toNat = (a.toNat + b.toNat) % 256 :=
  BitVec.toNat_ofNat _ 8

/-- The carry is that of the exact sum (R147). -/
theorem addWithCarry_flag (a b : Byte) :
    (flagByte (addWithCarry a b).2).toNat = if a.toNat + b.toNat > 255 then 1 else 0 := by
  simp [addWithCarry]

/-- The exact difference, narrowed, is the one lifted by 256 (R148, R150). -/
theorem subNotBorrow_result (a b : Byte) : (subNotBorrow a b).1.toNat = (a.toNat + 256 - b.toNat) % 256 := by
  have hb := b.isLt
  rw [subNotBorrow, BitVec.toNat_ofInt]
  omega

/-- NOT borrow: the exact difference is not negative (R148, R150). -/
theorem subNotBorrow_flag (a b : Byte) :
    (flagByte (subNotBorrow a b).2).toNat = if a.toNat < b.toNat then 0 else 1 := by
  by_cases h : a.toNat < b.toNat
  · simp [subNotBorrow, h]
  · simp [subNotBorrow, h]

/-- A bit of a byte, as a flag, is that binary digit of the byte's value. -/
theorem flagByte_getLsbD (b : Byte) (k : Nat) : (flagByte (b.getLsbD k)).toNat = b.toNat / 2 ^ k % 2 := by
  have htoNat (f : Bool) : (flagByte f).toNat = f.toNat := by cases f <;> rfl
  rw [htoNat, BitVec.getLsbD, Nat.toNat_testBit]

/-- The shift right halves (R149). -/
theorem shiftRight_result (b : Byte) : (shiftRight b).1.toNat = b.toNat / 2 := by
  rw [shiftRight, BitVec.toNat_ushiftRight, Nat.shiftRight_one]

/-- The bit shifted out on the right is the parity (R149). -/
theorem shiftRight_flag (b : Byte) : (flagByte (shiftRight b).2).toNat = b.toNat % 2 := by
  rw [shiftRight, flagByte_getLsbD, pow_zero, Nat.div_one]

/-- The shift left doubles, narrowed to a byte (R151). -/
theorem shiftLeft_result (b : Byte) : (shiftLeft b).1.toNat = b.toNat * 2 % 256 := by
  rw [shiftLeft, BitVec.toNat_shiftLeft, Nat.shiftLeft_eq, pow_one]

/-- The bit shifted out on the left is the upper half of the range (R151). -/
theorem shiftLeft_flag (b : Byte) : (flagByte (shiftLeft b).2).toNat = b.toNat / 128 := by
  have hb := b.isLt
  rw [shiftLeft, flagByte_getLsbD]
  omega

/-! ### What the handlers leave -/

/-- `Tail(false, false)` after any Machine with the old PC advances PC by 2 and reports no change (R106, R107). -/
theorem advancesQuietly_afterTail {s : State} {m : Mach} (hpc : m.pc = s.mach.pc) :
    AdvancesQuietly s (s.afterTail m false false false) :=
  ⟨(afterTail_pc s m false false false).trans (by rw [hpc]; rfl), rfl⟩

/-- What the write of one register and the tail leave. -/
theorem done_setV_next (s : State) (x : Nibble) (b : Byte) :
    ∃ t, s.done (s.mach.setV x b) = .next t ∧ t.mach.getV x = b ∧ OnlyRegisters [x] s t ∧ AdvancesQuietly s t := by
  refine ⟨_, done_eq s _, ?_, onlyRegisters_setV s x b false false, advancesQuietly_afterTail rfl⟩
  rw [afterTail_getV, Mach.getV_setV_self]

/-- What the write of a result and its flag and the tail leave, for a result of value `v` and a flag of value `f` (R142). -/
theorem done_setResult_next (s : State) (x : Nibble) {r : Byte × Bool} {v f : Nat} (hv : r.1.toNat = v)
    (hf : (flagByte r.2).toNat = f) :
    ∃ t, s.done (s.mach.setResult x r) = .next t ∧ (x ≠ 0xF → (t.mach.getV x).toNat = v) ∧
      (t.mach.getV 0xF).toNat = f ∧ OnlyRegisters [x, 0xF] s t ∧ AdvancesQuietly s t := by
  refine ⟨_, done_eq s _, fun hx => ?_, ?_, onlyRegisters_setResult s x r false false, advancesQuietly_afterTail rfl⟩
  · rw [afterTail_getV, Mach.getV_setResult_dest _ _ hx, hv]
  · rw [afterTail_getV, Mach.getV_setResult_flag, hf]

/-! ### The instructions -/

/-- Settles O29: both write one register, 7xkk the sum of two bytes. -/
theorem immediateLoadAndAdd : Obligations.ImmediateLoadAndAdd := by
  intro x kk s
  constructor
  · exact done_setV_next s x kk
  · obtain ⟨t, hexec, hx, hframe⟩ := done_setV_next s x (s.mach.getV x + kk)
    exact ⟨t, hexec, by rw [hx, BitVec.toNat_add], hframe⟩

/-- Settles O31: 8xy4 writes the narrowed sum and its carry. -/
theorem addSetsCarry : Obligations.AddSetsCarry :=
  fun x _ s => done_setResult_next s x (addWithCarry_result _ _) (addWithCarry_flag _ _)

/-- Settles O32: 8xy5 writes the narrowed difference and NOT borrow. -/
theorem subtractSetsNotBorrow : Obligations.SubtractSetsNotBorrow :=
  fun x _ s => done_setResult_next s x (subNotBorrow_result _ _) (subNotBorrow_flag _ _)

/-- Settles O34: both write a shift of Vy and the bit that fell out of it. -/
theorem shiftsTakeVy : Obligations.ShiftsTakeVy := by
  intro x y s
  constructor
  · exact done_setResult_next s x (shiftRight_result (s.mach.getV y)) (shiftRight_flag _)
  · exact done_setResult_next s x (shiftLeft_result (s.mach.getV y)) (shiftLeft_flag _)

end Sys2Proof.Proofs


/-! SUPPORT. The display (43_display.md): what an instruction that writes the screen leaves unchanged. -/

namespace Sys2Proof.Proofs

open Sys2Proof.Machine Sys2Proof.Safety

/-- The frame of a tail after a handler that wrote the screen and registers alone (R106). -/
theorem onlyScreenAnd_tail {s : State} {m : Mach} {d : List Nibble} (k c : Bool)
    (hm : m = { s.mach with v := m.v, screen := m.screen }) (hr : ∀ r, r ∉ d → m.getV r = s.mach.getV r) :
    OnlyScreenAnd d s (s.afterTail m k c false) := by
  refine ⟨fun r h => (afterTail_getV ..).trans (hr r h), ?_, ?_, ⟨?_, ?_⟩, ?_, ?_⟩
  · rw [afterTail_i, hm]
  · intro a; rw [afterTail_mem, hm]
  · rw [afterTail_sp, hm]
  · intro j; rw [afterTail_getStack, hm]; rfl
  · exact sameTimers_tail _ _ _ (by rw [hm]) (by rw [hm])
  · exact sameFaultKeyHost_tail _ _ (by rw [hm])

/-- Settles O43: 00E0 is `Tail(false, true)` after the write of a blank screen. -/
theorem clearTurnsEveryPixelOff : Obligations.ClearTurnsEveryPixelOff := by
  intro s
  refine ⟨_, tail_eq s (s.mach.setScreen Screen.blank) false true false, fun x y => ?_, ?_, ?_,
    onlyScreenAnd_tail false true rfl fun _ _ => rfl⟩
  · rw [afterTail_screen, Mach.setScreen_screen, Screen.pixel_blank]
  · rw [afterTail_pc, Mach.setScreen_pc]; rfl
  · rw [afterTail_out]

end Sys2Proof.Proofs


/-! SUPPORT. The key-input instructions (44_keys.md): what a comparison with the held key reports, and what it leaves in the slot. -/

namespace Sys2Proof.Proofs

open Sys2Proof.Machine Sys2Proof.Safety

/-- KEY_CLEAR empties the key slot (R243). -/
@[simp] theorem slotAfter_true (key : Option Nibble) : slotAfter true key = none := rfl

/-- Without KEY_CLEAR the key slot keeps what it held (R243). -/
@[simp] theorem slotAfter_false (key : Option Nibble) : slotAfter false key = key := rfl

/-- The one state Ex9E answers: the match is both the skip and KEY_CLEAR (R190). -/
theorem exec_skp (x : Nibble) (s : State) :
    exec (.skp x) s = .next (s.afterTail s.mach (s.keyMatches x) false (s.keyMatches x)) :=
  exec_eq (.skp x) s

/-- The frame of a key instruction whose handler writes nothing. -/
theorem onlyKeyAnd_nothing (s : State) (skip changed keyClear : Bool) :
    OnlyKeyAnd [] s (s.afterTail s.mach skip changed keyClear) :=
  onlyKeyAnd_tail skip changed keyClear rfl fun _ _ => rfl

/-- Settles O46: the held key equals Vx exactly where `keyMatches` says so, which decides PC, KEY_CLEAR and the slot alike. -/
theorem skipIfKeyHeld : Obligations.SkipIfKeyHeld := by
  intro x s
  refine ⟨_, exec_skp x s, fun hheld => ?_, fun hnot => ?_, rfl, onlyKeyAnd_nothing s _ _ _⟩
  · have hmatch : s.keyMatches x = true := (State.keyMatches_iff s x).2 hheld
    simp [hmatch]
  · have hmiss : s.keyMatches x = false := (State.keyMatches_eq_false_iff s x).2 hnot
    simp [hmiss]

end Sys2Proof.Proofs


/-! SUPPORT. The timer instructions (45_timers.md): the tick of the same step as a number, and what a write of a timer leaves
unchanged. -/

namespace Sys2Proof.Proofs

open Sys2Proof.Machine Sys2Proof.Safety

/-- A timer after the tick, as a number: one less if the tick is due, floored at 0 (R108). -/
theorem ticked_toNat (tick : Bool) (b : Byte) :
    (if tick then satdec b else b).toNat = b.toNat - (if tick then 1 else 0) := by
  cases tick
  case false => rfl
  case true => exact satdec_toNat b

/-- DT after a tail, from the DT the handler left (R106, R108). -/
theorem afterTail_dt_toNat (s : State) (m : Mach) (skip changed keyClear : Bool) :
    (s.afterTail m skip changed keyClear).mach.dt.toNat = m.dt.toNat - (if s.inp.tick then 1 else 0) := by
  rw [afterTail_dt, ticked_toNat]

/-- ST after a tail, from the ST the handler left (R106, R108). -/
theorem afterTail_st_toNat (s : State) (m : Mach) (skip changed keyClear : Bool) :
    (s.afterTail m skip changed keyClear).mach.st.toNat = m.st.toNat - (if s.inp.tick then 1 else 0) := by
  rw [afterTail_st, ticked_toNat]

/-- The frame of a tail after a handler that wrote the timers alone (R106). -/
theorem onlyTimers_tail {s : State} {m : Mach} (skip changed : Bool) (hm : m = { s.mach with dt := m.dt, st := m.st }) :
    OnlyTimers s (s.afterTail m skip changed false) := by
  refine ⟨fun r _ => ?_, ?_, fun a => ?_, ⟨?_, fun j => ?_⟩, fun x y => ?_, ?_⟩
  · rw [afterTail_getV, hm]; rfl
  · rw [afterTail_i, hm]
  · rw [afterTail_mem, hm]
  · rw [afterTail_sp, hm]
  · rw [afterTail_getStack, hm]; rfl
  · rw [afterTail_screen, hm]
  · exact sameFaultKeyHost_tail _ _ (by rw [hm])

/-- What the write of the timers and the tail leave: each timer the handler's, ticked, and nothing else but the PC advance. -/
theorem done_timers_next {s : State} {m : Mach} (hm : m = { s.mach with dt := m.dt, st := m.st }) :
    ∃ t, s.done m = .next t ∧ t.mach.dt.toNat = m.dt.toNat - (if s.inp.tick then 1 else 0) ∧
      t.mach.st.toNat = m.st.toNat - (if s.inp.tick then 1 else 0) ∧ OnlyTimers s t ∧ AdvancesQuietly s t :=
  ⟨_, done_eq s m, afterTail_dt_toNat .., afterTail_st_toNat .., onlyTimers_tail false false hm,
    advancesQuietly_afterTail (by rw [hm])⟩

/-- Settles O49: each handler writes its register or timer first, and the tail then ticks the timers it finds. -/
theorem timerReadAndSet : Obligations.TimerReadAndSet := by
  intro x s
  refine ⟨?fx07, ?fx15, ?fx18⟩
  case fx07 =>
    refine ⟨_, done_eq s (s.mach.setV x s.mach.dt), ?_, afterTail_dt_toNat .., onlyRegisters_setV s x _ false false,
      advancesQuietly_afterTail rfl⟩
    rw [afterTail_getV, Mach.getV_setV_self]
  case fx15 => exact done_timers_next (m := s.mach.setDt (s.mach.getV x)) rfl
  case fx18 =>
    obtain ⟨t, hexec, hdt, hst, hframe⟩ := done_timers_next (s := s) (m := s.mach.setSt (s.mach.getV x)) rfl
    exact ⟨t, hexec, hst, hdt, hframe⟩

end Sys2Proof.Proofs


/-! SUPPORT. The instructions that compute I from a register (46_index_memory.md section 1): the two results as numbers, and what a
write of I leaves unchanged. -/

namespace Sys2Proof.Proofs

open Sys2Proof.Machine Sys2Proof.Safety

/-- The sum of I and a register wraps at 16 bits (R211). -/
theorem iPlus_toNat (m : Mach) (x : Nibble) : (m.iPlus x).toNat = (m.i.toNat + (m.getV x).toNat) % 65536 := by
  rw [Mach.iPlus, BitVec.toNat_add, wordOf_toNat]

/-- The address of a glyph is a product that never wraps: it is at most 5 * 255 (R212). -/
theorem glyphAddr_toNat (m : Mach) (x : Nibble) : (m.glyphAddr x).toNat = 5 * (m.getV x).toNat := by
  have hstride : Config.glyphStride.toNat = 5 := rfl
  have hbyte := (m.getV x).isLt
  rw [Mach.glyphAddr, BitVec.toNat_mul, wordOf_toNat, hstride]
  omega

/-- What the write of I and the tail leave, for an address of value `n`. -/
theorem done_setI_next (s : State) {a : Word} {n : Nat} (ha : a.toNat = n) :
    ∃ t, s.done (s.mach.setI a) = .next t ∧ t.mach.i.toNat = n ∧ OnlyIndex s t ∧ AdvancesQuietly s t := by
  refine ⟨_, done_eq s _, ?_, onlyIndex_setI s a false false, advancesQuietly_afterTail rfl⟩
  rw [afterTail_i, Mach.setI_i, ha]

/-- Settles O50: both write I alone, Fx1E the wrapped sum and Fx29 the product. -/
theorem indexAddAndGlyph : Obligations.IndexAddAndGlyph :=
  fun x s => ⟨done_setI_next s (iPlus_toNat s.mach x), done_setI_next s (glyphAddr_toNat s.mach x)⟩

end Sys2Proof.Proofs


/-! SUPPORT. The decoder (30_encoding.md): both round trips, the opcode map by the fields its masks read, and the bytes consumed. -/

namespace Sys2Proof.Proofs

open Sys2Proof.Machine Sys2Proof.Safety

/-! ### The round trips -/

/-- Settles O1: the fields of the word are the operands, and a well-formed undefined code takes none of the branches above it. -/
theorem encodeThenDecodeGivesBack : Obligations.EncodeThenDecodeGivesBack := by
  intro i hwf
  cases i
  case nop0 nnn =>
    simp only [Instr.wellFormed, definedKeys0] at hwf
    simp_all [encode, decode, decodeGroup0]
  case nop8 x y n =>
    simp only [Instr.wellFormed, definedKeys8] at hwf
    simp_all [encode, decode, decodeGroup8]
  case nopE x kk =>
    simp only [Instr.wellFormed, definedKeysE] at hwf
    simp_all [encode, decode, decodeGroupE]
  case nopF x kk =>
    simp only [Instr.wellFormed, definedKeysF] at hwf
    simp_all [encode, decode, decodeGroupF]
  all_goals simp [encode, decode, decodeGroup0, decodeGroup8, decodeGroupE, decodeGroupF]

/-! A word of a known top nibble, from its other fields (R71). -/

theorem formatA_of_op {w : Word} {op : Nibble} (hop : fieldOp w = op) : formatA op (fieldNNN w) = w := by
  rw [← hop, formatA_fields]

theorem formatXK_of_op {w : Word} {op : Nibble} (hop : fieldOp w = op) : formatXK op (fieldX w) (fieldKK w) = w := by
  rw [← hop, formatXK_fields]

theorem formatXY_of_op {w : Word} {op : Nibble} (hop : fieldOp w = op) :
    formatXY op (fieldX w) (fieldY w) (fieldN w) = w := by
  rw [← hop, formatXY_fields]

/-- An instruction stands for a word: it is well formed and its encoding is that word. -/
def StandsFor (i : Instr) (w : Word) : Prop := i.wellFormed = true ∧ encode i = w

/-! What each secondary dispatch answers stands for the word it was given (R74 to R77). -/

theorem decodeGroup0_standsFor {w : Word} (hop : fieldOp w = 0x0) : StandsFor (decodeGroup0 w) w := by
  have hw := formatA_of_op hop
  unfold decodeGroup0
  split_ifs with hcls hret
  · exact ⟨rfl, by rwa [hcls] at hw⟩
  · exact ⟨rfl, by rwa [hret] at hw⟩
  · exact ⟨by simp_all [Instr.wellFormed, definedKeys0], hw⟩

theorem decodeGroup8_standsFor {w : Word} (hop : fieldOp w = 0x8) : StandsFor (decodeGroup8 w) w := by
  have hw := formatXY_of_op hop
  unfold decodeGroup8
  split_ifs with h0 h1 h2 h3 h4 h5 h6 h7 hE
  case neg => exact ⟨by simp_all [Instr.wellFormed, definedKeys8], hw⟩
  all_goals exact ⟨rfl, by simp_all [encode]⟩

theorem decodeGroupE_standsFor {w : Word} (hop : fieldOp w = 0xE) : StandsFor (decodeGroupE w) w := by
  have hw := formatXK_of_op hop
  unfold decodeGroupE
  split_ifs with h9E hA1
  case neg => exact ⟨by simp_all [Instr.wellFormed, definedKeysE], hw⟩
  all_goals exact ⟨rfl, by simp_all [encode]⟩

theorem decodeGroupF_standsFor {w : Word} (hop : fieldOp w = 0xF) : StandsFor (decodeGroupF w) w := by
  have hw := formatXK_of_op hop
  unfold decodeGroupF
  split_ifs with h07 h0A h15 h18 h1E h29 h33 h55 h65
  case neg => exact ⟨by simp_all [Instr.wellFormed, definedKeysF], hw⟩
  all_goals exact ⟨rfl, by simp_all [encode]⟩

/-- Settles O2: by the sixteen values of the top nibble (R73). -/
theorem decodeThenEncodeGivesBack : Obligations.DecodeThenEncodeGivesBack := by
  intro w
  obtain hop | hop | hop | hop | hop | hop | hop | hop | hop | hop | hop | hop | hop | hop | hop | hop :=
    nibble_cases (fieldOp w)
  · rw [decode_op0 hop]; exact decodeGroup0_standsFor hop
  · rw [decode_op1 hop]; exact ⟨rfl, formatA_of_op hop⟩
  · rw [decode_op2 hop]; exact ⟨rfl, formatA_of_op hop⟩
  · rw [decode_op3 hop]; exact ⟨rfl, formatXK_of_op hop⟩
  · rw [decode_op4 hop]; exact ⟨rfl, formatXK_of_op hop⟩
  · rw [decode_op5 hop]; exact ⟨rfl, formatXY_of_op hop⟩
  · rw [decode_op6 hop]; exact ⟨rfl, formatXK_of_op hop⟩
  · rw [decode_op7 hop]; exact ⟨rfl, formatXK_of_op hop⟩
  · rw [decode_op8 hop]; exact decodeGroup8_standsFor hop
  · rw [decode_op9 hop]; exact ⟨rfl, formatXY_of_op hop⟩
  · rw [decode_opA hop]; exact ⟨rfl, formatA_of_op hop⟩
  · rw [decode_opB hop]; exact ⟨rfl, formatA_of_op hop⟩
  · rw [decode_opC hop]; exact ⟨rfl, formatXK_of_op hop⟩
  · rw [decode_opD hop]; exact ⟨rfl, formatXY_of_op hop⟩
  · rw [decode_opE hop]; exact decodeGroupE_standsFor hop
  · rw [decode_opF hop]; exact decodeGroupF_standsFor hop

theorem encode_decode (w : Word) : encode (decode w) = w := (decodeThenEncodeGivesBack w).2

theorem decode_wellFormed (w : Word) : (decode w).wellFormed = true := (decodeThenEncodeGivesBack w).1

/-! ### The opcode map (R79) -/

/-- A row that reads the top nibble alone. -/
def rowOp (name : String) (op : Nibble) : OpcodeRow := ⟨name, formatA 0xF 0, formatA op 0⟩

/-- A row whose key is bits 11:0. -/
def rowNNN (name : String) (op : Nibble) (key : Imm12) : OpcodeRow := ⟨name, formatA 0xF 0xFFF, formatA op key⟩

/-- A row whose key is `kk`. -/
def rowKK (name : String) (op : Nibble) (key : Byte) : OpcodeRow := ⟨name, formatXK 0xF 0 0xFF, formatXK op 0 key⟩

/-- A row whose key is `n`. -/
def rowN (name : String) (op key : Nibble) : OpcodeRow := ⟨name, formatXY 0xF 0 0 0xF, formatXY op 0 0 key⟩

/-- Masking a word masks its fields. -/
theorem formatA_and (op op' : Nibble) (a a' : Imm12) : formatA op a &&& formatA op' a' = formatA (op &&& op') (a &&& a') :=
  BitVec.and_append

theorem formatXK_and (op op' x x' : Nibble) (k k' : Byte) :
    formatXK op x k &&& formatXK op' x' k' = formatXK (op &&& op') (x &&& x') (k &&& k') := by
  rw [formatXK, formatXK, BitVec.and_append, BitVec.and_append]; rfl

theorem formatA_inj (op op' : Nibble) (a a' : Imm12) : formatA op a = formatA op' a' ↔ op = op' ∧ a = a' :=
  ⟨fun h => ⟨by simpa using congrArg fieldOp h, by simpa using congrArg fieldNNN h⟩, fun ⟨ho, ha⟩ => by rw [ho, ha]⟩

theorem formatXK_inj (op op' x x' : Nibble) (k k' : Byte) :
    formatXK op x k = formatXK op' x' k' ↔ op = op' ∧ x = x' ∧ k = k' :=
  ⟨fun h => ⟨by simpa using congrArg fieldOp h, by simpa using congrArg fieldX h, by simpa using congrArg fieldKK h⟩,
    fun ⟨ho, hx, hk⟩ => by rw [ho, hx, hk]⟩

/-! A full mask keeps a field, with the mask as simp writes it. -/

theorem nibble_and_full (a : Nibble) : a &&& 15#4 = a := BitVec.and_allOnes
theorem byte_and_full (a : Byte) : a &&& 255#8 = a := BitVec.and_allOnes
theorem imm12_and_full (a : Imm12) : a &&& 4095#12 = a := BitVec.and_allOnes

@[simp] theorem rowOp_mnemonic (name : String) (op : Nibble) : (rowOp name op).mnemonic = name := rfl
@[simp] theorem rowNNN_mnemonic (name : String) (op : Nibble) (key : Imm12) : (rowNNN name op key).mnemonic = name := rfl
@[simp] theorem rowKK_mnemonic (name : String) (op : Nibble) (key : Byte) : (rowKK name op key).mnemonic = name := rfl
@[simp] theorem rowN_mnemonic (name : String) (op key : Nibble) : (rowN name op key).mnemonic = name := rfl

@[simp] theorem rowOp_matches (name : String) (op : Nibble) (w : Word) :
    (rowOp name op).matches w = (fieldOp w == op) := by
  rw [Bool.eq_iff_iff, OpcodeRow.matches, ← formatA_fields w]
  simp [rowOp, formatA_and, formatA_inj, nibble_and_full]

@[simp] theorem rowNNN_matches (name : String) (op : Nibble) (key : Imm12) (w : Word) :
    (rowNNN name op key).matches w = (fieldOp w == op && fieldNNN w == key) := by
  rw [Bool.eq_iff_iff, OpcodeRow.matches, ← formatA_fields w]
  simp [rowNNN, formatA_and, formatA_inj, nibble_and_full, imm12_and_full]

@[simp] theorem rowKK_matches (name : String) (op : Nibble) (key : Byte) (w : Word) :
    (rowKK name op key).matches w = (fieldOp w == op && fieldKK w == key) := by
  rw [Bool.eq_iff_iff, OpcodeRow.matches, ← formatXK_fields w]
  simp [rowKK, formatXK_and, formatXK_inj, nibble_and_full, byte_and_full]

@[simp] theorem rowN_matches (name : String) (op key : Nibble) (w : Word) :
    (rowN name op key).matches w = (fieldOp w == op && fieldN w == key) := by
  rw [Bool.eq_iff_iff, OpcodeRow.matches, ← formatXY_fields w]
  simp [rowN, formatXY_and, formatXY_inj, nibble_and_full]

/-- The masks and patterns of R79 read the fields that the dispatch of R73 to R77 reads. -/
theorem opcodeMap_eq : opcodeMap =
    [rowNNN "CLS" 0x0 0x0E0, rowNNN "RET" 0x0 0x0EE, rowOp "NOP_0" 0x0, rowOp "JP" 0x1, rowOp "CALL" 0x2,
     rowOp "SE_imm" 0x3, rowOp "SNE_imm" 0x4, rowOp "SE_reg" 0x5, rowOp "LD_imm" 0x6, rowOp "ADD_imm" 0x7,
     rowN "LD_reg" 0x8 0x0, rowN "OR" 0x8 0x1, rowN "AND" 0x8 0x2, rowN "XOR" 0x8 0x3, rowN "ADD_reg" 0x8 0x4,
     rowN "SUB" 0x8 0x5, rowN "SHR" 0x8 0x6, rowN "SUBN" 0x8 0x7, rowN "SHL" 0x8 0xE, rowOp "NOP_8" 0x8,
     rowOp "SNE_reg" 0x9, rowOp "LD_I" 0xA, rowOp "JP_V0" 0xB, rowOp "RND" 0xC, rowOp "DRW" 0xD,
     rowKK "SKP" 0xE 0x9E, rowKK "SKNP" 0xE 0xA1, rowOp "NOP_E" 0xE,
     rowKK "LD_Vx_DT" 0xF 0x07, rowKK "LD_K" 0xF 0x0A, rowKK "LD_DT_Vx" 0xF 0x15, rowKK "LD_ST_Vx" 0xF 0x18,
     rowKK "ADD_I" 0xF 0x1E, rowKK "LD_F" 0xF 0x29, rowKK "LD_B" 0xF 0x33, rowKK "LD_mem_store" 0xF 0x55,
     rowKK "LD_mem_load" 0xF 0x65, rowOp "NOP_F" 0xF] := by
  decide


/-- The word of a well-formed instruction selects the instruction's own row: an undefined code is not taken by a row above
it, because its key selects no defined instruction. -/
theorem selectRow_encode {i : Instr} (hwf : i.wellFormed = true) :
    (selectRow (encode i)).map (·.mnemonic) = some i.mnemonic := by
  rw [selectRow, opcodeMap_eq]
  cases i
  case nop0 nnn =>
    simp only [Instr.wellFormed, definedKeys0] at hwf
    simp_all [encode, Instr.mnemonic]
  case nop8 x y n =>
    simp only [Instr.wellFormed, definedKeys8] at hwf
    simp_all [encode, Instr.mnemonic]
  case nopE x kk =>
    simp only [Instr.wellFormed, definedKeysE] at hwf
    simp_all [encode, Instr.mnemonic]
  case nopF x kk =>
    simp only [Instr.wellFormed, definedKeysF] at hwf
    simp_all [encode, Instr.mnemonic]
  all_goals simp [encode, Instr.mnemonic]

/-- Settles O3: every word is the word of the instruction it decodes to. -/
theorem decodeFollowsOpcodeMap : Obligations.DecodeFollowsOpcodeMap := by
  intro w
  simpa only [encode_decode] using selectRow_encode (decode_wellFormed w)

/-! ### Words and bytes -/

/-- Settles O4: ten words, each decoded field by field. -/
theorem specExampleWordsDecode : Obligations.SpecExampleWordsDecode := by
  unfold Obligations.SpecExampleWordsDecode
  decide

/-- Settles O5: the word is the two bytes joined big-endian. -/
theorem decoderConsumesTwoBytes : Obligations.DecoderConsumesTwoBytes :=
  ⟨fun hi lo _ => ⟨joinBytes hi lo, joinBytes_toNat hi lo, rfl⟩, fun _ => rfl, rfl⟩

end Sys2Proof.Proofs


/-! SUPPORT. The step and the host's inputs (40_step_cycle.md, 60_exceptions.md): what the host presents, what a step answers, and
what it fetches. -/

namespace Sys2Proof.Proofs

open Sys2Proof.Machine Sys2Proof.Safety

/-! ### The host's presentation -/

/-- A tick that is due is the only one kept, and it is kept only until it is acknowledged (R113 b). -/
theorem accept_tick (s : State) (h : HostInputs) :
    (s.accept h).inp.tick = ((s.inp.tick && !s.out.tickAck) || h.tick) := rfl

theorem accept_key (s : State) (h : HostInputs) : (s.accept h).inp.key = KeyAction.apply h.key s.inp.key := rfl

/-- A presentation accepts the first scripted inputs, else the next free ones (R240, R244). -/
theorem present_cases (s : State) :
    (∃ h rest, s.script = h :: rest ∧ s.present = { s.accept h with script := rest }) ∨
    (s.script = [] ∧ s.present = { s.accept (Config.hostInputs s.draws) with draws := s.draws + 1 }) := by
  cases hs : s.script with
  | cons h rest => exact .inl ⟨h, rest, rfl, State.present_script hs⟩
  | nil => exact .inr ⟨rfl, State.present_free hs⟩

/-- What accepting one set of inputs leaves of the Machine, the outputs and the inputs, whatever becomes of the script (R240). -/
theorem inputs_of_accept {s t : State} {h : HostInputs} (hinp : t.inp = (s.accept h).inp) :
    t.inp.rnd = h.rnd ∧ (h.key = .keep → t.inp.key = s.inp.key) ∧ (h.key = .release → t.inp.key = none) ∧
    (∀ k, h.key = .press k → t.inp.key = some k) ∧
    (s.inp.tick = true → s.out.tickAck = false → t.inp.tick = true) ∧
    ((s.inp.tick = false ∨ s.out.tickAck = true) → t.inp.tick = h.tick) := by
  rw [hinp]
  refine ⟨rfl, fun hk => ?_, fun hk => ?_, fun k hk => ?_, fun htick hack => ?_, ?_⟩
  · rw [accept_key, hk]; rfl
  · rw [accept_key, hk]; rfl
  · rw [accept_key, hk]; rfl
  · simp [accept_tick, htick, hack]
  · rintro (htick | hack)
    · simp [accept_tick, htick]
    · simp [accept_tick, hack]

/-- Settles O7: the inputs are accepted from the script where there is one, else from the free values. -/
theorem hostPresentsTheNextInputs : Obligations.HostPresentsTheNextInputs := by
  intro s
  obtain ⟨h, rest, hs, hp⟩ | ⟨hs, hp⟩ := present_cases s
  · refine ⟨h, fun hnil => ?_, fun h' rest' hcons => ?_, s.present_mach, s.present_out, inputs_of_accept (by rw [hp])⟩
    · exact absurd (hs.symm.trans hnil) (List.cons_ne_nil h rest)
    · cases hs.symm.trans hcons
      exact ⟨rfl, by rw [hp], by rw [hp]; rfl⟩
  · refine ⟨Config.hostInputs s.draws, fun _ => ⟨rfl, ?_, by rw [hp]⟩, fun h' rest' hcons => ?_, s.present_mach,
      s.present_out, inputs_of_accept (by rw [hp])⟩
    · rw [hp]; exact hs
    · exact absurd (hs.symm.trans hcons) (List.cons_ne_nil h' rest').symm

/-- The inputs that set the key slot to a given key, or to none. -/
def presenting (inp : StepInputs) : HostInputs := ⟨inp.key.elim .release .press, inp.tick, inp.rnd⟩

/-- Where no tick is due, those inputs are accepted as they stand. -/
theorem accept_presenting {s : State} (htick : s.inp.tick = false) (inp : StepInputs) :
    s.accept (presenting inp) = { s with inp := inp } := by
  obtain ⟨key, tick, rnd⟩ := inp
  cases key <;> simp [State.accept, presenting, KeyAction.apply, htick]

/-- Settles O8: the loaded core has no tick due, so any inputs may be presented to it, and it has no script, so free ones are. -/
theorem firstStepSeesTheHostsInputs : Obligations.FirstStepSeesTheHostsInputs := by
  intro rom
  refine ⟨fun inp => ⟨presenting inp, ?_⟩, ?_⟩
  · rw [step, State.present_script (h := presenting inp) (rest := []) rfl, accept_presenting rfl]; rfl
  · rw [step, State.present_free rfl]; rfl

/-! ### What a step answers -/

/-- No instruction changes TICK or RND, and the key slot is left or emptied (R243). -/
theorem exec_inp {i : Instr} {s t : State} (h : exec i s = .next t) :
    t.inp = ⟨slotAfter t.out.keyClear s.inp.key, s.inp.tick, s.inp.rnd⟩ := by
  obtain ⟨c, -, -, rfl⟩ | ⟨-, -, -, rfl⟩ | ⟨-, -, -, rfl⟩ := exec_next h
  · rfl
  · rfl
  · rfl

/-- A step leaves TICK as it was presented. -/
theorem step_tick {s t : State} (h : step s = .next t) : t.inp.tick = s.present.inp.tick := by
  obtain ⟨-, rfl⟩ | ⟨-, w, -, hexec⟩ := step_cases h
  · rfl
  · rw [exec_inp hexec]

/-- Settles O9: the second presentation keeps the tick, and the second step leaves it. -/
theorem unacknowledgedTickStaysDue : Obligations.UnacknowledgedTickStaysDue := by
  intro s t u _ htick hack hnext
  obtain ⟨h, hinp⟩ := t.present_inp
  rw [step_tick hnext, hinp, accept_tick, htick, hack]
  rfl

/-- Settles O11: a recorded cause keeps a core from running. -/
theorem faultedCoreNeverChanges : Obligations.FaultedCoreNeverChanges :=
  fun n _ hcause => run_of_not_running n fun hrun => hcause hrun.1

/-- Every instruction answers a next state (R103, R109, R231). -/
theorem exec_answers (i : Instr) (s : State) : ∃ t, exec i s = .next t := by
  obtain ⟨-, -, m, h⟩ | ⟨-, m, skip, changed, keyClear, h⟩ | ⟨c, -, h⟩ := exec_shape i s
  · exact ⟨_, h⟩
  · exact ⟨_, h⟩
  · exact ⟨_, h⟩

/-- Settles O12: a core that does not run idles, and a running one finds its word inside memory. -/
theorem nothingStopsTheMachine : Obligations.NothingStopsTheMachine := by
  refine ⟨fun s => ?_, exec_answers⟩
  by_cases hrun : Running s
  · rw [step_running hrun (Mach.fetch_eq hrun.2)]
    exact exec_answers _ _
  · exact ⟨_, step_idle hrun⟩

/-- Settles O6: below the halt boundary both bytes exist, and the fetch joins them. -/
theorem stepRunsTheDecodedInstruction : Obligations.StepRunsTheDecodedInstruction := by
  intro s hrun
  have hpc := hrun.2
  exact ⟨_, _, _, Memory.read_isSome _ (show _ < 4095 by omega), Memory.read_isSome _ (show _ < 4095 by omega), joinBytes_toNat _ _,
    decode_wellFormed _, step_running hrun (Mach.fetch_eq hpc)⟩

end Sys2Proof.Proofs


/-! SUPPORT. Rules over every instruction (10_state.md, 20_memory.md, 40_step_cycle.md, 60_exceptions.md): what each handler writes
of each piece of state, and the rules that follow through the three ends of a handler. -/

namespace Sys2Proof.Proofs

open Sys2Proof.Machine Sys2Proof.Safety

/-! ### What a handler leaves of each piece of state -/

/-- Fx0A, whether a key is held or not, writes registers alone (R192). -/
theorem handlerMach_ldK (x : Nibble) (s : State) :
    handlerMach (.ldK x) s = { s.mach with v := (handlerMach (.ldK x) s).v } := by
  rw [handlerMach]
  cases s.inp.key
  · rfl
  · rfl

/-- Fx65 writes registers alone (R215). -/
theorem handlerMach_ldMemLoad (x : Nibble) (s : State) :
    handlerMach (.ldMemLoad x) s = { s.mach with v := (handlerMach (.ldMemLoad x) s).v } :=
  Mach.loadRegs_eq _ _

/-- No handler writes FAULT: only taking a fault does (R231). -/
@[simp] theorem handlerMach_fault (i : Instr) (s : State) : (handlerMach i s).fault = s.mach.fault := by
  cases i
  case ldK => rw [handlerMach_ldK]
  case ldMemLoad => rw [handlerMach_ldMemLoad]
  all_goals rfl

/-- A handler that is no control transfer leaves PC to the tail (R104, R107). -/
theorem handlerMach_pc {i : Instr} {s : State} (h : returnsEarly i s = false) : (handlerMach i s).pc = s.mach.pc := by
  cases i
  case ret | jp | call | jpV0 => exact Bool.noConfusion h
  case ldK => rw [handlerMach_ldK]
  case ldMemLoad => rw [handlerMach_ldMemLoad]
  all_goals rfl

/-- Only Fx15 writes DT (R29, R201). -/
theorem handlerMach_dt (i : Instr) (s : State) : (handlerMach i s).dt = dtBeforeTick i s := by
  cases i
  case ldK => rw [handlerMach_ldK]; rfl
  case ldMemLoad => rw [handlerMach_ldMemLoad]; rfl
  all_goals rfl

/-- Only Fx18 writes ST (R30, R202). -/
theorem handlerMach_st (i : Instr) (s : State) : (handlerMach i s).st = stBeforeTick i s := by
  cases i
  case ldK => rw [handlerMach_ldK]; rfl
  case ldMemLoad => rw [handlerMach_ldMemLoad]; rfl
  all_goals rfl

/-- Only 00E0 and Dxyn write the screen (R28, R110). -/
theorem handlerMach_screen {i : Instr} (s : State) (h : changes i = false) :
    (handlerMach i s).screen = s.mach.screen := by
  cases i
  case cls | drw => exact Bool.noConfusion h
  case ldK => rw [handlerMach_ldK]
  case ldMemLoad => rw [handlerMach_ldMemLoad]
  all_goals rfl

/-- Only 2nnn and 00EE write SP (R26). -/
theorem handlerMach_sp {i : Instr} (s : State) (hret : i ≠ .ret) (hcall : ∀ nnn, i ≠ .call nnn) :
    (handlerMach i s).sp = s.mach.sp := by
  cases i
  case ret => exact absurd rfl hret
  case call nnn => exact absurd rfl (hcall nnn)
  case ldK => rw [handlerMach_ldK]
  case ldMemLoad => rw [handlerMach_ldMemLoad]
  all_goals rfl

/-- Only 2nnn writes the stack (R27). -/
theorem handlerMach_stack {i : Instr} (s : State) (hcall : ∀ nnn, i ≠ .call nnn) :
    (handlerMach i s).stack = s.mach.stack := by
  cases i
  case call nnn => exact absurd rfl (hcall nnn)
  case ldK => rw [handlerMach_ldK]
  case ldMemLoad => rw [handlerMach_ldMemLoad]
  all_goals rfl

/-- Only Fx33 and Fx55 write memory (R51). -/
theorem handlerMach_mem {i : Instr} (s : State) (hb : ∀ x, i ≠ .ldB x) (hstore : ∀ x, i ≠ .ldMemStore x) :
    (handlerMach i s).mem = s.mach.mem := by
  cases i
  case ldB x => exact absurd rfl (hb x)
  case ldMemStore x => exact absurd rfl (hstore x)
  case ldK => rw [handlerMach_ldK]
  case ldMemLoad => rw [handlerMach_ldMemLoad]
  all_goals rfl

/-- The registers Fx65 may write are V0 to Vx (R22). -/
theorem mem_destinations_ldMemLoad (x r : Nibble) : r ∈ destinations (.ldMemLoad x) ↔ r.toNat ≤ x.toNat := by
  simp only [destinations, List.mem_map, List.mem_range]
  constructor
  · rintro ⟨k, hk, rfl⟩
    rw [BitVec.toNat_ofNat]
    exact (Nat.mod_le k _).trans (Nat.lt_succ_iff.1 hk)
  · exact fun h => ⟨r.toNat, Nat.lt_succ_of_le h, by simp⟩

theorem getV_setResult_of_notMem (m : Mach) {x q : Nibble} (r : Byte × Bool) (h : q ∉ [x, 0xF]) :
    (m.setResult x r).getV q = m.getV q := by
  obtain ⟨hx, hf⟩ : q ≠ x ∧ q ≠ vf := by simpa [vf] using h
  rw [Mach.getV_setResult, if_neg hf, if_neg hx]

/-- No handler that runs to its end writes a register outside its row of the table of R22. -/
theorem handlerMach_getV {i : Instr} {s : State} {r : Nibble} (hfault : faultOf i s = none) (hr : r ∉ destinations i) :
    (handlerMach i s).getV r = s.mach.getV r := by
  cases i
  case ldImm | addImm | ldReg | orReg | andReg | xorReg | rnd | ldVxDt =>
    exact Mach.getV_setV_ne _ _ (List.mem_singleton.not.1 hr)
  case drw => exact Mach.getV_setV_ne (s.mach.setScreen _) _ (List.mem_singleton.not.1 hr)
  case addReg | sub | shr | subn | shl => exact getV_setResult_of_notMem _ _ hr
  case ldK x =>
    rw [handlerMach]
    cases s.inp.key
    · rfl
    · exact Mach.getV_setV_ne _ _ (List.mem_singleton.not.1 hr)
  case ldMemLoad x =>
    have hin : s.mach.i.toNat + x.toNat < 4095 := by simpa [faultOf] using hfault
    rw [handlerMach, Mach.getV_loadRegs _ _ _ hin, if_neg]
    exact fun h => hr ((mem_destinations_ldMemLoad x r).2 h)
  all_goals rfl

/-! ### From a handler to an instruction -/

/-- With a fault the state after an instruction is the one the fault leaves (R231). -/
theorem next_of_fault {i : Instr} {s t : State} {c : FaultCause} (hf : faultOf i s = some c) (h : exec i s = .next t) :
    t = s.afterFault c i := by
  rw [exec_eq, hf] at h
  cases h; rfl

/-- With an early return it is the one the handler leaves (R105). -/
theorem next_of_early {i : Instr} {s t : State} (hf : faultOf i s = none) (he : returnsEarly i s = true)
    (h : exec i s = .next t) : t = s.afterEarly (handlerMach i s) := by
  simp only [exec_eq, hf, he] at h
  cases h; rfl

/-- Otherwise it is the one the tail leaves (R106). -/
theorem next_of_tail {i : Instr} {s t : State} (hr : reachesTail i s = true) (h : exec i s = .next t) :
    t = s.afterTail (handlerMach i s) (skips i s) (changes i) (clearsKey i s) := by
  obtain ⟨c, -, hn, -⟩ | ⟨-, -, hn, -⟩ | ⟨-, -, -, ht⟩ := exec_next h
  · exact absurd (hn.symm.trans hr) Bool.false_ne_true
  · exact absurd (hn.symm.trans hr) Bool.false_ne_true
  · exact ht

/-- A part of the Machine that neither taking a fault nor the tail writes is kept by every instruction whose handler keeps it. -/
theorem exec_keeps {α : Type} (part : Mach → α) (hfault : ∀ m f, part { m with fault := f } = part m)
    (htail : ∀ m tick skip, part ((Mach.tickTimers m tick).advancePc skip) = part m) {i : Instr} {s t : State}
    (h : exec i s = .next t) (hhandler : faultOf i s = none → part (handlerMach i s) = part s.mach) :
    part t.mach = part s.mach := by
  obtain ⟨c, -, -, rfl⟩ | ⟨hf, -, -, rfl⟩ | ⟨hf, -, -, rfl⟩ := exec_next h
  · exact hfault _ _
  · exact hhandler hf
  · exact (htail _ _ _).trans (hhandler hf)

/-! ### Registers, memory, the stack and the screen -/

/-- Settles O13: neither a fault nor the tail writes a register, and a handler only its destinations. -/
theorem onlyNamedRegistersChange : Obligations.OnlyNamedRegistersChange :=
  fun _ _ _ r h hr =>
    exec_keeps (·.getV r) (fun _ _ => rfl) (fun _ _ _ => by simp) h fun hf => handlerMach_getV hf hr

/-- Memory after an instruction is what its handler left, or, with a fault, what it was. -/
theorem exec_mem {i : Instr} {s t : State} (h : exec i s = .next t) :
    t.mach.mem = s.mach.mem ∨ t.mach.mem = (handlerMach i s).mem := by
  obtain ⟨c, -, -, rfl⟩ | ⟨-, -, -, rfl⟩ | ⟨-, -, -, rfl⟩ := exec_next h
  · exact .inl rfl
  · exact .inr rfl
  · exact .inr (afterTail_mem ..)

/-- A byte that a run of writes changed is one of those it names. -/
theorem changed_of_writeBytes {m : Memory} {a b : Nat} {ws : List Byte}
    (h : Memory.read (Memory.writeBytes m a ws) b ≠ Memory.read m b) : a ≤ b ∧ b < a + ws.length := by
  rw [Memory.read_writeBytes] at h
  by_contra hout
  exact h (if_neg fun hin => hout ⟨hin.1, hin.2.1⟩)

/-- Settles O14: only the two stores write memory, each a run of bytes from I on. -/
theorem onlyStoresWriteMemory : Obligations.OnlyStoresWriteMemory := by
  intro i s t a h hne
  rw [(exec_mem h).resolve_left fun e => hne (by rw [e])] at hne
  by_cases hb : ∃ x, i = .ldB x
  · obtain ⟨x, rfl⟩ := hb
    have hin := changed_of_writeBytes hne
    have hlen : (decimalDigits (s.mach.getV x)).length = 3 := rfl
    exact .inl ⟨x, rfl, hin.1, by omega⟩
  by_cases hstore : ∃ x, i = .ldMemStore x
  · obtain ⟨x, rfl⟩ := hstore
    have hin := changed_of_writeBytes hne
    have hlen := Mach.regsUpTo_length s.mach x
    exact .inr ⟨x, rfl, hin.1, by omega⟩
  · exact absurd (by rw [handlerMach_mem s (not_exists.1 hb) (not_exists.1 hstore)]) hne

theorem exec_stack {i : Instr} {s t : State} (h : exec i s = .next t) (hcall : ∀ nnn, i ≠ .call nnn) :
    t.mach.stack = s.mach.stack :=
  exec_keeps Mach.stack (fun _ _ => rfl) (fun _ _ _ => by simp) h fun _ => handlerMach_stack s hcall

theorem exec_sp {i : Instr} {s t : State} (h : exec i s = .next t) (hret : i ≠ .ret) (hcall : ∀ nnn, i ≠ .call nnn) :
    t.mach.sp = s.mach.sp :=
  exec_keeps Mach.sp (fun _ _ => rfl) (fun _ _ _ => by simp) h fun _ => handlerMach_sp s hret hcall

theorem faultOf_call {s : State} (nnn : Imm12) (hsp : s.mach.sp.toNat ≠ 15) : faultOf (.call nnn) s = none := if_neg hsp
theorem faultOf_ret {s : State} (hsp : s.mach.sp.toNat ≠ 0) : faultOf .ret s = none := if_neg hsp

/-- A call that does not overflow does not wrap SP (R124). -/
theorem sp_succ_toNat {sp : Nibble} (h : sp.toNat ≠ 15) : (sp + 1).toNat = sp.toNat + 1 := by
  have hlt := sp.isLt
  rw [BitVec.toNat_add]
  show (sp.toNat + 1) % 16 = _
  omega

/-- All an instruction can do to a slot: a call that does not overflow writes PC + 2 in the one above SP (R27, R123). -/
theorem exec_getStack {i : Instr} {s t : State} (h : exec i s = .next t) (j : Nibble) :
    t.mach.getStack j = s.mach.getStack j ∨
    (∃ nnn, i = .call nnn) ∧ j.toNat = s.mach.sp.toNat + 1 ∧ t.mach.getStack j = s.mach.pc + 2 := by
  by_cases hcall : ∃ nnn, i = .call nnn
  · obtain ⟨nnn, rfl⟩ := hcall
    by_cases hsp : s.mach.sp.toNat = 15
    · have hf : faultOf (.call nnn) s = some .stackOverflow := if_pos hsp
      rw [next_of_fault hf h]
      exact .inl rfl
    · have hslot := Mach.push_getStack s.mach (s.mach.pc + 2) j
      rw [next_of_early (faultOf_call nnn hsp) rfl h, State.afterEarly_mach, handlerMach, Mach.setPc_getStack, hslot]
      split_ifs with hj
      · exact .inr ⟨⟨nnn, rfl⟩, by rw [hj, sp_succ_toNat hsp], rfl⟩
      · exact .inl rfl
  · exact .inl (Mach.getStack_congr (exec_stack h (not_exists.1 hcall)) j)

/-- Settles O15: a slot above SP is not slot 0. -/
theorem onlyCallAndReturnTouchTheStack : Obligations.OnlyCallAndReturnTouchTheStack := by
  intro i s t h
  refine ⟨fun hne => ?_, fun j hne => ?_, ?_⟩
  · by_contra hno
    obtain ⟨hret, hcall⟩ := not_or.1 hno
    exact hne (exec_sp h hret (not_exists.1 hcall))
  · obtain ⟨hcall, hj, -⟩ := (exec_getStack h j).resolve_left hne
    exact ⟨hcall, hj⟩
  · exact (exec_getStack h 0).resolve_right fun ⟨_, h0, _⟩ => Nat.succ_ne_zero _ h0.symm

/-- Settles O17: the screen is as it was, and the render port is a function of it. -/
theorem noReportedChangeNoRenderedChange : Obligations.NoReportedChangeNoRenderedChange := by
  intro s t h hquiet
  have hscreen : t.mach.screen = s.mach.screen := by
    obtain ⟨-, rfl⟩ | ⟨-, w, -, hexec⟩ := step_cases h
    · simp
    · rw [exec_changed hexec] at hquiet
      simpa using exec_keeps Mach.screen (fun _ _ => rfl) (fun _ _ _ => by simp) hexec
        fun _ => handlerMach_screen _ hquiet
  exact ⟨fun x y => by rw [hscreen], by rw [State.render, hscreen, State.render]⟩

/-! ### The timers and the key slot -/

/-- Fx15 and Fx18 do not return early (R104). -/
theorem timers_of_returnsEarly {i : Instr} {s : State} (h : returnsEarly i s = true) :
    dtBeforeTick i s = s.mach.dt ∧ stBeforeTick i s = s.mach.st := by
  cases i
  case ldDtVx | ldStVx => exact Bool.noConfusion h
  all_goals exact ⟨rfl, rfl⟩

/-- Settles O18: the tail ticks what the handler left, and the two other ends tick nothing. -/
theorem timersTickOnceInTheTail : Obligations.TimersTickOnceInTheTail := by
  intro i s t h
  obtain ⟨c, -, hn, rfl⟩ | ⟨-, he, hn, rfl⟩ | ⟨-, -, hr, rfl⟩ := exec_next h
  · simp [hn]
  · obtain ⟨hdt, hst⟩ := timers_of_returnsEarly he
    simp [hn, handlerMach_dt, handlerMach_st, hdt, hst]
  · refine ⟨fun _ htick => ?_, fun _ htick => ?_, fun hn => absurd (hn.symm.trans hr) Bool.false_ne_true⟩
    · simp [htick, handlerMach_dt, handlerMach_st]
    · simp [htick, handlerMach_dt, handlerMach_st]

/-- KEY_CLEAR is reported in the tail alone (R105, R231, R243). -/
theorem exec_keyClear {i : Instr} {s t : State} (h : exec i s = .next t) :
    t.out.keyClear = true ↔ reachesTail i s = true ∧ clearsKey i s = true := by
  obtain ⟨c, -, hn, rfl⟩ | ⟨-, -, hn, rfl⟩ | ⟨-, -, hr, rfl⟩ := exec_next h
  · simp [hn]
  · simp [hn]
  · simp [hr]

/-- The three cases that clear the key slot (R190 to R192). -/
theorem clearsKey_iff (i : Instr) (s : State) :
    (reachesTail i s = true ∧ clearsKey i s = true) ↔
      (∃ x k, i = .skp x ∧ s.inp.key = some k ∧ k.toNat = (s.mach.getV x).toNat) ∨
      (∃ x, i = .sknp x ∧ s.inp.key = none) ∨
      (∃ x k, i = .ldK x ∧ s.inp.key = some k) := by
  cases i
  case skp x => simp [clearsKey, reachesTail, returnsEarly, faultOf, State.keyMatches_iff]
  case sknp x => simp [clearsKey, reachesTail, returnsEarly, faultOf]
  case ldK x => cases hk : s.inp.key <;> simp [clearsKey, reachesTail, returnsEarly, faultOf, hk]
  all_goals simp [clearsKey]

/-- Settles O19: the slot after is `slotAfter` of what is reported, and the report has three sources. -/
theorem keySlotClearedOnlyByKeyInstructions : Obligations.KeySlotClearedOnlyByKeyInstructions := by
  intro i s t h
  exact ⟨by rw [exec_inp h]; rfl, (exec_keyClear h).trans (clearsKey_iff i s)⟩

/-! ### What an instruction reads of its inputs -/

/-- An instruction does the same on other inputs if the tick is the same and it reads of them, at no place, what differs. -/
theorem exec_with_inputs {i : Instr} {s t : State} (inp : StepInputs) (htick : inp.tick = s.inp.tick)
    (hearly : returnsEarly i { s with inp := inp } = returnsEarly i s)
    (hmach : handlerMach i { s with inp := inp } = handlerMach i s)
    (hskip : skips i { s with inp := inp } = skips i s) (hclear : clearsKey i { s with inp := inp } = clearsKey i s)
    (h : exec i s = .next t) :
    exec i { s with inp := inp } = .next { t with inp := ⟨slotAfter t.out.keyClear inp.key, inp.tick, inp.rnd⟩ } := by
  have hfault : faultOf i { s with inp := inp } = faultOf i s := by unfold faultOf; rfl
  rw [exec_eq, hfault, hearly, hmach, hskip, hclear]
  obtain ⟨c, hf, -, rfl⟩ | ⟨hf, he, -, rfl⟩ | ⟨hf, he, -, rfl⟩ := exec_next h
  · rw [hf]; rfl
  · rw [hf, he]; rfl
  · rw [hf, he]
    simp [State.tail, State.afterTail, htick]

/-- Settles O20: only Cxkk has RND among what its handler reads. -/
theorem onlyRndReadsTheRandomByte : Obligations.OnlyRndReadsTheRandomByte := by
  intro i s t b hrnd h
  have hmach : handlerMach i { s with inp := { s.inp with rnd := b } } = handlerMach i s := by
    cases i
    case rnd x kk => exact absurd rfl (hrnd x kk)
    all_goals rfl
  rw [exec_with_inputs { s.inp with rnd := b } rfl rfl hmach rfl rfl h, exec_inp h]

/-- Settles O21: no other instruction has KEY among what it reads, and none of the others clears the slot. -/
theorem onlyKeyInstructionsSeeTheKey : Obligations.OnlyKeyInstructionsSeeTheKey := by
  intro i s t k hskp hsknp hldK h
  obtain ⟨hearly, hmach, hskip, hclear, hquiet⟩ :
      returnsEarly i { s with inp := { s.inp with key := k } } = returnsEarly i s ∧
      handlerMach i { s with inp := { s.inp with key := k } } = handlerMach i s ∧
      skips i { s with inp := { s.inp with key := k } } = skips i s ∧
      clearsKey i { s with inp := { s.inp with key := k } } = clearsKey i s ∧ clearsKey i s = false := by
    cases i
    case skp x => exact absurd rfl (hskp x)
    case sknp x => exact absurd rfl (hsknp x)
    case ldK x => exact absurd rfl (hldK x)
    all_goals exact ⟨rfl, rfl, rfl, rfl, rfl⟩
  have hout : t.out.keyClear = false := Bool.eq_false_iff.2 fun hc => by simpa [hquiet] using (exec_keyClear h).1 hc
  rw [exec_with_inputs { s.inp with key := k } rfl hearly hmach hskip hclear h, exec_inp h, hout, slotAfter_false]

/-! ### PC and FAULT -/

/-- Only a conditional skip tells its tail to skip (R104, R107). -/
theorem skips_of_not_isSkip {i : Instr} (s : State) (h : isSkip i = false) : skips i s = false := by
  cases i
  case seImm | sneImm | seReg | sneReg | skp | sknp => exact Bool.noConfusion h
  all_goals rfl

/-- The PC advance of an instruction that reaches the tail (R107). -/
theorem pc_of_tail {i : Instr} {s t : State} (hr : reachesTail i s = true) (h : exec i s = .next t) :
    t.mach.pc = s.mach.pc + if skips i s then 4 else 2 := by
  have he : returnsEarly i s = false := by simp_all [reachesTail]
  rw [next_of_tail hr h, afterTail_pc, handlerMach_pc he]

/-- Settles O22: by the end each instruction comes to. -/
theorem programCounterMoves : Obligations.ProgramCounterMoves := by
  intro i s t h
  refine ⟨fun hf => ?fault, ?wait, fun hr _ => ?skip, fun hr hns => ?advance, fun nnn hi => ?jump, fun nnn hi => ?computed,
    fun hi hsp => ?ret⟩
  case fault =>
    obtain ⟨c, hc⟩ := Option.isSome_iff_exists.1 hf
    rw [next_of_fault hc h]; rfl
  case wait =>
    rintro ⟨x, rfl, hk⟩
    rw [next_of_early rfl (by simp [returnsEarly, hk]) h, State.afterEarly_mach, handlerMach_ldK]
  case skip =>
    rw [pc_of_tail hr h]
    cases skips i s
    · exact .inl rfl
    · exact .inr rfl
  case advance => rw [pc_of_tail hr h, skips_of_not_isSkip s hns]; rfl
  case jump =>
    obtain rfl | ⟨rfl, hsp⟩ := hi
    · rw [next_of_early rfl rfl h]; exact addrOf_toNat nnn
    · rw [next_of_early (faultOf_call nnn hsp) rfl h]; exact addrOf_toNat nnn
  case computed =>
    subst hi
    rw [next_of_early rfl rfl h]; exact addrPlusV0_toNat s.mach nnn
  case ret =>
    subst hi
    rw [next_of_early (faultOf_ret hsp) rfl h]; rfl

/-- Only taking a fault writes FAULT (R35, R231). -/
theorem fault_of_no_fault {i : Instr} {s t : State} (hf : faultOf i s = none) (h : exec i s = .next t) :
    t.mach.fault = s.mach.fault := by
  obtain ⟨c, hc, -, -⟩ | ⟨-, -, -, rfl⟩ | ⟨-, -, -, rfl⟩ := exec_next h
  · cases hf.symm.trans hc
  · exact handlerMach_fault i s
  · rw [afterTail_fault, handlerMach_fault]

/-- Settles O25: the table of R230. -/
theorem faultCodes : Obligations.FaultCodes := ⟨rfl, rfl, rfl, rfl, rfl⟩

/-- Settles O23: by the table of causes. -/
theorem faultsExactlyWhereNamed : Obligations.FaultsExactlyWhereNamed := by
  intro i s
  refine ⟨fun c hc => ?_, fun hf => ?_⟩
  · rw [exec_eq, hc]; rfl
  · obtain ⟨t, h⟩ := exec_answers i s
    exact ⟨t, h, fault_of_no_fault hf h⟩

/-- Which fault an instruction raises depends on the Machine alone (R230). -/
theorem faultOf_congr {s t : State} (h : t.mach = s.mach) (i : Instr) : faultOf i t = faultOf i s := by
  unfold faultOf; rw [h]

/-- Settles O24: the word of the decoded instruction is the word fetched, and no other end of an instruction writes FAULT. -/
theorem faultRecordsTheFetchedWord : Obligations.FaultRecordsTheFetchedWord := by
  intro s t w hrun hw h hcause
  rw [step_running hrun hw] at h
  cases hf : faultOf (decode w) s.present with
  | none => exact absurd ((congrArg _ (fault_of_no_fault hf h)).trans (by simpa using hrun.1)) hcause
  | some c =>
    rw [← faultOf_congr s.present_mach (decode w), hf, next_of_fault hf h]
    simp [encode_decode]

end Sys2Proof.Proofs


/-! SUPPORT. The invariant of the machine (10_state.md sections 2 and 3, 60_exceptions.md section 1) and the canonical form of
memory. -/

namespace Sys2Proof.Proofs

open Sys2Proof.Machine Sys2Proof.Safety

/-! ### The invariant depends on the Machine alone -/

theorem machineInv_congr {s t : State} (h : t.mach = s.mach) : MachineInv t ↔ MachineInv s := by
  simp only [MachineInv, FaultRecorded, h, faultOf_congr h]

/-! ### What each part of the invariant rests on -/

/-- Every instruction keeps the canonical form of memory (log entry 5). -/
theorem exec_wf {i : Instr} {s t : State} (hwf : Memory.wf s.mach.mem) (h : exec i s = .next t) :
    Memory.wf t.mach.mem := by
  have hhandler : Memory.wf (handlerMach i s).mem := by
    cases i
    case ldB | ldMemStore => exact Memory.wf_writeBytes _ _ hwf
    case ldK => rwa [handlerMach_ldK]
    case ldMemLoad => rwa [handlerMach_ldMemLoad]
    all_goals exact hwf
  obtain hm | hm := exec_mem h
  · rwa [hm]
  · rwa [hm]

/-- An early return leaves PC at a return address, at a jump's target, or where it was (R24, R104). -/
theorem early_pc_le {i : Instr} {s : State} (he : returnsEarly i s = true) (hpc : s.mach.pc.toNat ≤ 0x10FE)
    (hstack : ∀ j, (s.mach.getStack j).toNat ≤ 0xFFF) : (handlerMach i s).pc.toNat ≤ 0x10FE := by
  cases i
  case ret => exact (hstack _).trans (by decide)
  case jp nnn | call nnn =>
    have hnnn := nnn.isLt
    show (addrOf nnn).toNat ≤ _
    rw [addrOf_toNat]; omega
  case jpV0 nnn =>
    have hnnn := nnn.isLt
    have hv0 := (s.mach.getV 0).isLt
    show (s.mach.addrPlusV0 nnn).toNat ≤ _
    rw [addrPlusV0_toNat]; omega
  case ldK => rwa [handlerMach_ldK]
  all_goals exact Bool.noConfusion he

/-- From a PC below the halt boundary no instruction goes past 0x10FE (R24). -/
theorem exec_pc_le {i : Instr} {s t : State} (hpc : s.mach.pc.toNat < 0xFFE)
    (hstack : ∀ j, (s.mach.getStack j).toNat ≤ 0xFFF) (h : exec i s = .next t) : t.mach.pc.toNat ≤ 0x10FE := by
  obtain ⟨c, -, -, rfl⟩ | ⟨-, he, -, rfl⟩ | ⟨-, -, hr, -⟩ := exec_next h
  · show s.mach.pc.toNat ≤ _; omega
  · exact early_pc_le he (by omega) hstack
  · rw [pc_of_tail hr h, BitVec.toNat_add]
    cases skips i s
    · show (s.mach.pc.toNat + 2) % 65536 ≤ _; omega
    · show (s.mach.pc.toNat + 4) % 65536 ≤ _; omega

/-- From a PC below the halt boundary every return address pushed is inside memory (R27). -/
theorem exec_getStack_le {i : Instr} {s t : State} (hpc : s.mach.pc.toNat < 0xFFE)
    (hstack : ∀ j, (s.mach.getStack j).toNat ≤ 0xFFF) (h : exec i s = .next t) (j : Nibble) :
    (t.mach.getStack j).toNat ≤ 0xFFF := by
  obtain hsame | ⟨-, -, hpush⟩ := exec_getStack h j
  · rw [hsame]; exact hstack j
  · rw [hpush, BitVec.toNat_add]
    show (s.mach.pc.toNat + 2) % 65536 ≤ _; omega

/-- The table of R230 names a cause, never NONE. -/
theorem faultOf_ne_noFault {i : Instr} {s : State} {c : FaultCause} (h : faultOf i s = some c) : c ≠ .noFault := by
  rintro rfl
  cases i
  case call | ret | ldMemLoad | ldMemStore | ldB => simp [faultOf] at h
  all_goals cases h

/-- Taking a fault leaves all that decides which fault an instruction raises. -/
theorem faultOf_afterFault (i j : Instr) (s : State) (c : FaultCause) :
    faultOf i (s.afterFault c j) = faultOf i s := by
  unfold faultOf; rfl

/-- A running core that executes the word it fetched records in FAULT what R231 says. -/
theorem exec_faultRecorded {s t : State} {w : Word} (hrun : Running s) (hw : s.mach.fetch = some w)
    (hrec : FaultRecorded s) (h : exec (decode w) s = .next t) : FaultRecorded t := by
  cases hf : faultOf (decode w) s with
  | none =>
    have hfault := fault_of_no_fault hf h
    exact ⟨fun hn => by rw [hfault]; exact hrec.1 hrun.1, fun hne => absurd (by rw [hfault]; exact hrun.1) hne⟩
  | some c =>
    obtain rfl := next_of_fault hf h
    refine ⟨fun hn => absurd hn (faultOf_ne_noFault hf), fun _ => ⟨rfl, hrun.2, ?_, ?_⟩⟩
    · rw [State.afterFault_mach, encode_decode]; exact hw
    · rw [faultOf_afterFault, State.afterFault_mach, encode_decode]; exact hf

/-! ### The invariant -/

/-- A running core that executes the word it fetched keeps the invariant. -/
theorem exec_keeps_machineInv {s t : State} {w : Word} (hrun : Running s) (hw : s.mach.fetch = some w)
    (hinv : MachineInv s) (h : exec (decode w) s = .next t) : MachineInv t := by
  obtain ⟨hwf, -, hstack, hslot0, hrec⟩ := hinv
  obtain ⟨-, -, hsame0⟩ := onlyCallAndReturnTouchTheStack (decode w) s t h
  exact ⟨exec_wf hwf h, exec_pc_le hrun.2 hstack h, exec_getStack_le hrun.2 hstack h, hsame0.trans hslot0,
    exec_faultRecorded hrun hw hrec h⟩

/-- Settles O26: neither the host's presentation nor an idle step touches the Machine, and an executed word keeps each part. -/
theorem everyStepKeepsTheInvariant : Obligations.EveryStepKeepsTheInvariant := by
  intro s t hinv h
  obtain ⟨-, rfl⟩ | ⟨hrun, w, hw, hexec⟩ := step_cases h
  · exact (machineInv_congr (by simp)).2 hinv
  · exact exec_keeps_machineInv ((running_present s).2 hrun) (by rwa [State.present_mach])
      ((machineInv_congr s.present_mach).2 hinv) hexec

/-- A slot of the stack after reset (R38). -/
@[simp] theorem reset_getStack (j : Nibble) : State.reset.mach.getStack j = 0 := by
  simp [State.reset, Mach.reset, Mach.getStack]

/-- Settles O27: all but PC is zero. -/
theorem resetMeetsTheInvariant : Obligations.ResetMeetsTheInvariant :=
  ⟨Memory.wf_reset, by decide, fun j => by simp, by simp, fun _ => ⟨rfl, rfl⟩, fun hne => absurd rfl hne⟩

/-! ### The canonical form -/

/-- A listed address reads as listed, where addresses rise strictly. -/
theorem lookup_of_mem {m : Memory} (hsorted : m.Pairwise (fun c d => c.1 < d.1)) {c : Host.Cell} (hc : c ∈ m) :
    Memory.lookup m c.1 = c.2 := by
  induction m with
  | nil => cases hc
  | cons d rest ih =>
    obtain ⟨hhead, htail⟩ := List.pairwise_cons.1 hsorted
    obtain rfl | hc := List.mem_cons.1 hc
    · simp [Memory.lookup]
    · rw [Memory.lookup, if_neg (hhead c hc).ne', ih htail hc]

/-- An address that reads as no unlisted one does is listed. -/
theorem mem_of_lookup {m : Memory} {a : Nat} (h : Memory.lookup m a ≠ Config.resetByte a) :
    (a, Memory.lookup m a) ∈ m := by
  induction m with
  | nil => exact absurd rfl h
  | cons d rest ih =>
    obtain ⟨b, v⟩ := d
    rw [Memory.lookup] at h ⊢
    by_cases hab : a = b
    · simp [hab]
    · rw [if_neg hab] at h ⊢
      exact List.mem_cons_of_mem _ (ih h)

/-- A memory in canonical form lists exactly what its reads tell apart from an unlisted byte. -/
theorem mem_iff_read {m : Memory} (hwf : Memory.wf m) (c : Host.Cell) :
    c ∈ m ↔ Memory.read m c.1 = some c.2 ∧ c.2 ≠ Config.resetByte c.1 := by
  obtain ⟨a, v⟩ := c
  constructor
  · intro hc
    obtain ⟨hin, hne⟩ := hwf.2 _ hc
    exact ⟨by rw [Memory.read_isSome _ hin, lookup_of_mem hwf.1 hc], hne⟩
  · rintro ⟨hread, hne⟩
    have hlookup : Memory.lookup m a = v := by
      by_cases hin : a < Config.memSize
      · simpa [Memory.read_isSome _ hin] using hread
      · simp [Memory.read_none _ hin] at hread
    exact hlookup ▸ mem_of_lookup (hlookup ▸ hne)

/-- Settles O28: two lists whose addresses rise strictly are the same if they list the same. -/
theorem canonicalMemoriesAreEqualData : Obligations.CanonicalMemoriesAreEqualData := by
  intro m m' hwf hwf' hread
  have : Std.Asymm (fun c d : Host.Cell => c.1 < d.1) := ⟨fun _ _ => lt_asymm⟩
  exact hwf.1.eq_of_mem_iff hwf'.1 fun {c} => by rw [mem_iff_read hwf, mem_iff_read hwf', hread]

end Sys2Proof.Proofs


/-! SUPPORT. The statements of single instructions: register loads and ALU (42_alu.md), control flow (41_control_flow.md) and keys
(44_keys.md). -/

namespace Sys2Proof.Proofs

open Sys2Proof.Machine Sys2Proof.Safety

/-! ### Register loads and ALU -/

/-- What the write of a byte with known bits to one register and the tail leave. -/
theorem done_setV_bits (s : State) (x : Nibble) {b : Byte} {bits : Nat → Bool} (hb : ∀ k, b.getLsbD k = bits k) :
    ∃ t, s.done (s.mach.setV x b) = .next t ∧ (∀ k, (t.mach.getV x).getLsbD k = bits k) ∧ OnlyRegisters [x] s t ∧
      AdvancesQuietly s t := by
  obtain ⟨t, h, hx, hframe⟩ := done_setV_next s x b
  exact ⟨t, h, fun k => by rw [hx, hb], hframe⟩

/-- Settles O30: each writes one register, with bits combined one by one. -/
theorem assignAndLogic : Obligations.AssignAndLogic := by
  intro x y s
  refine ⟨?assign, ?or, ?and, ?xor⟩
  case assign => exact done_setV_next s x (s.mach.getV y)
  case or => exact done_setV_bits s x fun _ => BitVec.getLsbD_or
  case and => exact done_setV_bits s x fun _ => BitVec.getLsbD_and
  case xor => exact done_setV_bits s x fun _ => BitVec.getLsbD_xor

/-- Settles O33: 8xy7 is the subtraction with its operands reversed. -/
theorem reverseSubtractSetsNotBorrow : Obligations.ReverseSubtractSetsNotBorrow :=
  fun x _ s => done_setResult_next s x (subNotBorrow_result _ _) (subNotBorrow_flag _ _)

/-- Settles O35: Cxkk writes one register, each bit masked. -/
theorem randomByteMasked : Obligations.RandomByteMasked :=
  fun x _ s => done_setV_bits s x fun _ => BitVec.getLsbD_and

/-! ### Control flow -/

/-- Settles O37: both are skips, 5xyN on Vx = Vy and 9xyN on its negation. -/
theorem skipOnRegister : Obligations.SkipOnRegister := by
  intro x y n s
  constructor
  · exact skipIf_next s (s.mach.getV x == s.mach.getV y) (by simp)
  · exact skipIf_next s (s.mach.getV x != s.mach.getV y) (by simp)

/-- The one state 2nnn answers where it does not overflow (R123). -/
theorem exec_call {s : State} (nnn : Imm12) (hsp : s.mach.sp ≠ 15) :
    exec (.call nnn) s = .next (s.afterEarly ((s.mach.push (s.mach.pc + 2)).setPc (addrOf nnn))) :=
  if_neg hsp

/-- The one state 00EE answers where it does not underflow (R120). -/
theorem exec_ret {s : State} (hsp : s.mach.sp ≠ 0) : exec .ret s = .next (s.afterEarly s.mach.popPc) :=
  if_neg hsp

/-- A return that does not underflow does not wrap SP (R122). -/
theorem sp_pred_toNat {sp : Nibble} (h : sp ≠ 0) : (sp - 1).toNat + 1 = sp.toNat := by
  bv_omega

/-- Settles O40: the push writes the slot above SP, and the early return leaves the rest. -/
theorem callPushesTheReturnAddress : Obligations.CallPushesTheReturnAddress := by
  intro nnn s hsp
  refine ⟨_, exec_call nnn hsp, addrOf_toNat nnn, sp_succ_toNat fun e => hsp (BitVec.eq_of_toNat_eq e), ?_, fun j hj => ?_,
    onlyPcAndStack_early rfl⟩
  · exact (Mach.push_getStack ..).trans (if_pos rfl)
  · exact (Mach.push_getStack ..).trans (if_neg hj)

/-- Settles O41: the pop reads the slot at SP, and the early return leaves the rest. -/
theorem returnPopsTheReturnAddress : Obligations.ReturnPopsTheReturnAddress :=
  fun _ hsp => ⟨_, exec_ret hsp, rfl, sp_pred_toNat hsp, fun _ => rfl, onlyPcAndStack_early rfl⟩

/-- Settles O42: the slot at SP after the call holds the return address, and it is one of the slots kept. -/
theorem returnUndoesCall : Obligations.ReturnUndoesCall := by
  intro nnn s t u hsp hcall hkeep hslots
  obtain ⟨t', hcall', -, hspt, hslot, -, -⟩ := callPushesTheReturnAddress nnn s hsp
  cases hcall.symm.trans hcall'
  have hne : u.mach.sp ≠ 0 := fun e => by rw [← hkeep, e] at hspt; exact Nat.succ_ne_zero _ hspt.symm
  obtain ⟨r, hret, hpc, hspr, -, -⟩ := returnPopsTheReturnAddress u hne
  refine ⟨r, hret, ?_, ?_⟩
  · rw [hpc, hkeep, hslots _ (by omega) le_rfl, hslot]
  · rw [hkeep] at hspr
    exact BitVec.eq_of_toNat_eq (by omega)

/-! ### Keys -/

/-- The one state ExA1 answers (R191). -/
theorem exec_sknp (x : Nibble) (s : State) :
    exec (.sknp x) s = .next (s.afterTail s.mach (!s.keyMatches x) false s.inp.key.isNone) :=
  exec_eq (.sknp x) s

/-- To clear a slot that holds nothing leaves it. -/
theorem slotAfter_isNone (key : Option Nibble) : slotAfter key.isNone key = key := by
  cases key
  · rfl
  · rfl

/-- Settles O47: the skip is the failure to match, and KEY_CLEAR is given only for an empty slot. -/
theorem skipIfKeyNotHeld : Obligations.SkipIfKeyNotHeld := by
  intro x s
  refine ⟨_, exec_sknp x s, fun hheld => ?_, fun hnot => ?_, Option.isNone_iff_eq_none, slotAfter_isNone _, rfl,
    onlyKeyAnd_nothing s _ _ _⟩
  · simp [(State.keyMatches_iff s x).2 hheld]
  · simp [(State.keyMatches_eq_false_iff s x).2 hnot]

/-- The one state a waiting Fx0A answers (R192). -/
theorem exec_ldK_none {s : State} (x : Nibble) (hk : s.inp.key = none) : exec (.ldK x) s = .next (s.afterEarly s.mach) := by
  simp only [exec, execLdK, hk]

/-- The one state an Fx0A that takes a key answers (R192). -/
theorem exec_ldK_some {s : State} (x : Nibble) {k : Nibble} (hk : s.inp.key = some k) :
    exec (.ldK x) s = .next (s.afterTail (s.mach.setV x (keyByte k)) false false true) := by
  simp only [exec, execLdK, hk]

/-- Settles O48: with no key an early return of the Machine as it was, with a key a tail that reports KEY_CLEAR. -/
theorem keyWaitAndTake : Obligations.KeyWaitAndTake := by
  intro x s
  refine ⟨fun hk => exec_ldK_none x hk, fun k hk => ⟨_, exec_ldK_some x hk, ?_, rfl, rfl, ?_, ?_⟩⟩
  · rw [afterTail_getV, Mach.getV_setV_self, keyByte_toNat]
  · exact ⟨afterTail_pc .., rfl⟩
  · exact onlyKeyAnd_tail _ _ _ rfl fun r hr => Mach.getV_setV_ne _ _ (List.mem_singleton.not.1 hr)

end Sys2Proof.Proofs


/-! SUPPORT. The draw and the render port (43_display.md): which pixels a sprite flips, and where a pixel's bytes stand. -/

namespace Sys2Proof.Proofs

open Sys2Proof.Machine Sys2Proof.Safety

/-! ### The draw -/

/-- The drawing of Dxyn flips the pixels under a set bit of the sprite (R171). -/
theorem draws_spriteBit (s : State) (x y n : Nibble) :
    Draws (drawSprite s.mach.mem s.mach.i.toNat (s.mach.column x) (s.mach.row y) n.toNat) (SpriteBit s x y n) := by
  refine (draws_sprite _ _ _ _ _).congr fun px py => ?_
  constructor
  · rintro ⟨r, hr, b, hb, c, hc, hx, hy, hbit⟩
    exact ⟨r, c, b, hr, hc, hx, hy, hb, hbit⟩
  · rintro ⟨r, c, b, hr, hc, hx, hy, hb, hbit⟩
    exact ⟨r, hr, b, hb, c, hc, hx, hy, hbit⟩

/-- Settles O44: the drawing starts from the old screen and no collision, and VF receives the collision. -/
theorem drawXorsTheSprite : Obligations.DrawXorsTheSprite := by
  intro x y n s
  obtain ⟨hpixels, hcollision⟩ := draws_spriteBit s x y n (s.mach.screen, false)
  have hvf (m : Mach) (f : Bool) : (s.afterTail (m.setV vf (flagByte f)) false true false).mach.getV 0xF = flagByte f :=
    (afterTail_getV ..).trans (Mach.getV_setV_self m vf _)
  refine ⟨_, tail_eq s _ false true false, fun px py hx hy => ?_, fun hon => ?_, fun hoff => ?_, afterTail_pc .., rfl,
    onlyScreenAnd_tail false true rfl fun r hr => Mach.getV_setV_ne (s.mach.setScreen _) _ (List.mem_singleton.not.1 hr)⟩
  · rw [afterTail_screen]
    exact hpixels px py hx hy
  · rw [hvf, Mach.drawn, hcollision.2 (.inr hon)]; rfl
  · rw [hvf, Mach.drawn, Bool.eq_false_iff.2 fun hc => hoff ((hcollision.1 hc).resolve_left Bool.false_ne_true)]; rfl

/-! ### The render port -/

/-- Blocks of one length: dropping as many elements as `j` blocks hold drops `j` blocks. -/
theorem drop_flatMap {α β : Type} {f : α → List β} {k : Nat} (hf : ∀ a, (f a).length = k) (j : Nat) (l : List α) :
    (l.flatMap f).drop (k * j) = (l.drop j).flatMap f := by
  induction j generalizing l with
  | zero => rfl
  | succ j ih =>
    cases l with
    | nil => simp
    | cons a l =>
      rw [List.flatMap_cons, Nat.mul_succ, Nat.add_comm, ← List.drop_drop, List.drop_left' (hf a), ih, List.drop_succ_cons]

theorem length_flatMap_const {α β : Type} {f : α → List β} {k : Nat} (hf : ∀ a, (f a).length = k) (l : List α) :
    (l.flatMap f).length = k * l.length := by
  simp [List.length_flatMap, hf, Nat.mul_comm]

/-- The block at place `j` stands where `j` blocks end. -/
theorem drop_flatMap_getElem {α β : Type} {f : α → List β} {k : Nat} (hf : ∀ a, (f a).length = k) {l : List α} {j : Nat}
    (hj : j < l.length) : (l.flatMap f).drop (k * j) = f l[j] ++ (l.drop (j + 1)).flatMap f := by
  rw [drop_flatMap hf, List.drop_eq_getElem_cons hj, List.flatMap_cons]

/-- The bytes of one row of the screen (R174). -/
def renderRow (row : Vector Bool Config.screenW) : List Byte := row.toList.flatMap pixelBytes

theorem pixelBytes_length (on : Bool) : (pixelBytes on).length = 4 := by
  cases on
  · rfl
  · rfl

theorem renderRow_length (row : Vector Bool Config.screenW) : (renderRow row).length = 256 := by
  rw [renderRow, length_flatMap_const pixelBytes_length, Vector.length_toList]; rfl

/-- The four bytes at a pixel's place in the render buffer are the pixel's (R174, R175). -/
theorem render_pixel (scr : Screen) {x y : Nat} (hx : x < 64) (hy : y < 32) :
    ((Screen.render scr).drop (4 * (64 * y + x))).take 4 = pixelBytes (Screen.pixel scr x y) := by
  have hsplit : 4 * (64 * y + x) = 256 * y + 4 * x := by omega
  have hyl : y < scr.toList.length := by rwa [Vector.length_toList]
  have hxl : x < scr[y].toList.length := by rwa [Vector.length_toList]
  have hrow : (Screen.render scr).drop (256 * y) = renderRow scr[y] ++ (scr.toList.drop (y + 1)).flatMap renderRow :=
    drop_flatMap_getElem renderRow_length hyl
  have hcell : (renderRow scr[y]).drop (4 * x) = pixelBytes scr[y][x] ++ (scr[y].toList.drop (x + 1)).flatMap pixelBytes :=
    drop_flatMap_getElem pixelBytes_length hxl
  rw [hsplit, ← List.drop_drop, hrow, List.drop_append_of_le_length (by rw [renderRow_length]; omega), hcell,
    List.append_assoc, List.take_left' (pixelBytes_length _), Screen.pixel_inside scr hx hy]

/-- Settles O45: 32 rows of 64 pixels of four bytes. -/
theorem renderShowsEveryPixel : Obligations.RenderShowsEveryPixel := by
  intro s
  refine ⟨?_, fun x y hx hy => ?_⟩
  · exact (length_flatMap_const renderRow_length s.mach.screen.toList).trans (by rw [Vector.length_toList]; rfl)
  · rw [State.render, render_pixel _ hx hy]; rfl

end Sys2Proof.Proofs


/-! SUPPORT. The memory instructions and the load of I (46_index_memory.md): what a store of bytes and a load of registers leave. -/

namespace Sys2Proof.Proofs

open Sys2Proof.Machine Sys2Proof.Safety

/-- Settles O51: Annn writes I alone. -/
theorem indexLoad : Obligations.IndexLoad := fun nnn s => done_setI_next s (addrOf_toNat nnn)

/-- What a store of bytes from I on, all inside memory, and the tail leave. -/
theorem done_storeAtI_next (s : State) {bs : List Byte} (hin : s.mach.i.toNat + bs.length ≤ 4095) :
    ∃ t, s.done (s.mach.storeAtI bs) = .next t ∧
      (∀ j, j < bs.length → Memory.read t.mach.mem (s.mach.i.toNat + j) = bs[j]?) ∧
      OnlyBytes s.mach.i.toNat bs.length s t ∧ AdvancesQuietly s t :=
  ⟨_, done_eq s _, fun _ hj => read_storeAtI s bs false false false hj (by omega),
    onlyBytes_storeAtI s bs false false, advancesQuietly_afterTail rfl⟩

/-- Fx33, Fx55 and Fx65 with their bytes inside memory go on to the tail (R213 to R215). -/
theorem exec_ldB {s : State} (x : Nibble) (hin : s.mach.i.toNat + 2 < 4095) :
    exec (.ldB x) s = s.done (s.mach.storeAtI (decimalDigits (s.mach.getV x))) :=
  if_pos ((Mach.reachable_iff _ _).2 hin)

theorem exec_ldMemStore {s : State} (x : Nibble) (hin : s.mach.i.toNat + x.toNat < 4095) :
    exec (.ldMemStore x) s = s.done (s.mach.storeAtI (s.mach.regsUpTo x)) :=
  if_pos ((Mach.reachable_iff _ _).2 hin)

theorem exec_ldMemLoad {s : State} (x : Nibble) (hin : s.mach.i.toNat + x.toNat < 4095) :
    exec (.ldMemLoad x) s = s.done (s.mach.loadRegs x) :=
  if_pos ((Mach.reachable_iff _ _).2 hin)

/-- A digit as a byte has its value. -/
theorem digit_toNat {n : Nat} (h : n < 10) : (BitVec.ofNat 8 n).toNat = n := by
  rw [BitVec.toNat_ofNat]
  exact Nat.mod_eq_of_lt (by omega)

/-- Settles O52: the three bytes are the digits of Vx. -/
theorem decimalDigitsStored : Obligations.DecimalDigitsStored := by
  intro x s hin
  have hv := (s.mach.getV x).isLt
  obtain ⟨t, h, hread, hframe⟩ := done_storeAtI_next s (bs := decimalDigits (s.mach.getV x)) hin
  refine ⟨t, _, _, _, (exec_ldB x hin).trans h, hread 0 (show 0 < 3 by decide), hread 1 (show 1 < 3 by decide),
    hread 2 (show 2 < 3 by decide), ?_⟩
  rw [digit_toNat (n := (s.mach.getV x).toNat / 100) (by omega),
    digit_toNat (n := (s.mach.getV x).toNat / 10 % 10) (by omega),
    digit_toNat (n := (s.mach.getV x).toNat % 10) (by omega)]
  exact ⟨by omega, by omega, by omega, by omega, hframe⟩

/-- Settles O53: byte k of the run is Vk. -/
theorem registersStored : Obligations.RegistersStored := by
  intro x s hin
  have hlen := Mach.regsUpTo_length s.mach x
  obtain ⟨t, h, hread, hframe, hquiet⟩ := done_storeAtI_next s (bs := s.mach.regsUpTo x) (by omega)
  refine ⟨t, (exec_ldMemStore x hin).trans h, fun k hk => ?_, hlen ▸ hframe, hquiet⟩
  rw [hread k.toNat (by omega), Mach.regsUpTo_getElem? _ _ _ hk]

/-- Settles O54: the load writes V0 to Vx alone, each the byte at its offset from I. -/
theorem registersLoaded : Obligations.RegistersLoaded := by
  intro x s hin
  have hreg (k : Nibble) := (afterTail_getV s (s.mach.loadRegs x) false false false k).trans (Mach.getV_loadRegs _ x k hin)
  refine ⟨_, (exec_ldMemLoad x hin).trans (done_eq s _), fun k hk => ?_, fun k hk => ?_, ?_, ?_⟩
  · rw [hreg, if_pos hk, Memory.read_isSome _ (show _ < 4095 by omega)]
  · rw [hreg, if_neg (by omega)]
  · refine onlyRegisters_tail _ _ (Mach.loadRegs_eq _ _) fun r hr => ?_
    rw [Mach.getV_loadRegs _ _ _ hin, if_neg fun h => hr ((mem_destinations_ldMemLoad x r).2 h)]
  · exact advancesQuietly_afterTail (by rw [Mach.loadRegs_eq])

/-- Settles O55: byte k that Fx65 loads is byte k that Fx55 stored. -/
theorem storeLoadRoundTrip : Obligations.StoreLoadRoundTrip := by
  intro x s t u hin hstore hi hkeep
  obtain ⟨t', hstore', hstored, -, -⟩ := registersStored x s hin
  cases hstore.symm.trans hstore'
  obtain ⟨r, hload, hloaded, -, -, -⟩ := registersLoaded x u (by rwa [hi])
  refine ⟨r, hload, fun k hk => Option.some_inj.1 ?_⟩
  rw [hloaded k hk, hi, hkeep _ (by omega) (by omega), hstored k hk]

end Sys2Proof.Proofs


/-! SUPPORT. Reset and load (70_reset_and_hazards.md): what memory reads as after each. -/

namespace Sys2Proof.Proofs

open Sys2Proof.Machine Sys2Proof.Safety

/-- Settles O57: memory lists nothing, so it reads as the font and zeros. -/
theorem resetLeaves : Obligations.ResetLeaves := by
  have hread (a : Nat) (ha : a < 4095) : Memory.read State.reset.mach.mem a = some (Config.font.getD a 0) := by
    rw [Memory.read_isSome _ ha, ← resetByte_eq]; rfl
  have hfont (a : Nat) (ha : 80 ≤ a) : Config.font.getD a 0 = 0 := by
    rw [List.getD_eq_getElem?_getD, List.getElem?_eq_none (show Config.font.length ≤ a from ha)]; rfl
  refine ⟨rfl, rfl, rfl, rfl, rfl, fun r => ?_, reset_getStack, Screen.pixel_blank, rfl, hread, fun a h80 ha => ?_, rfl, rfl⟩
  · simp [State.reset, Mach.reset, Mach.getV]
  · rw [hread a ha, hfont a h80]

/-- What a load leaves in memory (R260, R263). -/
theorem read_load (rom : List Byte) (a : Nat) :
    Memory.read (State.load rom).mach.mem a =
      if 0x200 ≤ a ∧ a < 0x200 + (rom.take 3583).length ∧ a < 4095 then (rom.take 3583)[a - 0x200]?
      else Memory.read State.reset.mach.mem a :=
  Memory.read_writeBytes _ _ _ _

/-- Settles O58: the load is one run of writes from 0x200 on. -/
theorem loadPlacesTheRom : Obligations.LoadPlacesTheRom := by
  intro rom
  refine ⟨fun j hj hmax => ?_, fun a ha => ?_, rfl⟩
  · rw [read_load, List.length_take, if_pos (by omega), Nat.add_sub_cancel_left, List.getElem?_take_of_lt hmax]
  · rw [read_load, List.length_take, if_neg (by omega)]

/-- Settles O59: the transaction maps the load over the source. -/
theorem loadFailsWithoutARom : Obligations.LoadFailsWithoutARom := ⟨rfl, fun _ => rfl⟩

end Sys2Proof.Proofs
